-- ==== Sys2Proof/Word.lean ====
section
/-!
DEFINITION. The widths of the manual's values (spec/00_scope.md R6, spec/30_encoding.md R91).
Every value of this ISA is unsigned (R9); a bit vector stands for what the manual adds, shifts, masks or
stores as a word, and `toNat` gives the unbounded integer the manual computes an address with (R68).
-/

namespace Sys2Proof

/-- A byte of memory, a general register, a timer (R6: V_WIDTH, TIMER_WIDTH). -/
abbrev Byte := BitVec 8

/-- An instruction word, PC, I, a stack entry (R6: INSN_WIDTH, PC_WIDTH, I_WIDTH, STACK_ENTRY_WIDTH). -/
abbrev Word := BitVec 16

/-- The X or Y field: the number of a general register, V0 to VF (R21, R91). -/
abbrev Reg := BitVec 4

/-- The N field of DXYN: a row count 0 to 15 (R91). -/
abbrev Nibble := BitVec 4

/-- The NNN field: a 12-bit address (R91). -/
abbrev Imm12 := BitVec 12

/-- VF, the general register that is also the flag output (R24). -/
abbrev VF : Reg := 15

end Sys2Proof
end

