-- ==== Sys2Proof/Syntax.lean ====
section
/-!
DEFINITION. The instructions (spec/30_encoding.md R94): one constructor for each of the 35 rows of
spec/opcode_table.json, in the table's order. Operands have the widths of the fields of R91, so an operand outside its
field cannot be written.
-/

namespace Sys2Proof

/-- The 35 instructions of R94. `x`, `y` are the register fields X and Y, `nn` the byte NN, `nnn` the address NNN,
`n` the row count N. -/
inductive Instr where
  /-- 0000 NOP (R111). -/
  | nop
  /-- 00E0 CLS (R180). -/
  | cls
  /-- 00EE RET (R112). -/
  | ret
  /-- 1NNN JP addr (R113). -/
  | jp (nnn : Imm12)
  /-- 2NNN CALL addr (R114). -/
  | call (nnn : Imm12)
  /-- 3XNN SE Vx, byte (R115). -/
  | seByte (x : Reg) (nn : Byte)
  /-- 4XNN SNE Vx, byte (R116). -/
  | sneByte (x : Reg) (nn : Byte)
  /-- 5XY0 SE Vx, Vy (R117). -/
  | seReg (x y : Reg)
  /-- 6XNN LD Vx, byte (R132). -/
  | ldByte (x : Reg) (nn : Byte)
  /-- 7XNN ADD Vx, byte (R133). -/
  | addByte (x : Reg) (nn : Byte)
  /-- 8XY0 LD Vx, Vy (R134). -/
  | ldReg (x y : Reg)
  /-- 8XY1 OR Vx, Vy (R135). -/
  | orReg (x y : Reg)
  /-- 8XY2 AND Vx, Vy (R136). -/
  | andReg (x y : Reg)
  /-- 8XY3 XOR Vx, Vy (R137). -/
  | xorReg (x y : Reg)
  /-- 8XY4 ADD Vx, Vy (R138). -/
  | addReg (x y : Reg)
  /-- 8XY5 SUB Vx, Vy (R139). -/
  | subReg (x y : Reg)
  /-- 8XY6 SHR Vx, Vy (R140); the Y field is encoded and not used (R100). -/
  | shr (x y : Reg)
  /-- 8XY7 SUBN Vx, Vy (R141). -/
  | subnReg (x y : Reg)
  /-- 8XYE SHL Vx, Vy (R142); the Y field is encoded and not used (R100). -/
  | shl (x y : Reg)
  /-- 9XY0 SNE Vx, Vy (R118). -/
  | sneReg (x y : Reg)
  /-- ANNN LD I, addr (R160). -/
  | ldI (nnn : Imm12)
  /-- BNNN JP V0, addr (R119). -/
  | jpV0 (nnn : Imm12)
  /-- CXNN RND Vx, byte (R143). -/
  | rnd (x : Reg) (nn : Byte)
  /-- DXYN DRW Vx, Vy, nibble (R181). -/
  | drw (x y : Reg) (n : Nibble)
  /-- EX9E SKP Vx (R200). -/
  | skp (x : Reg)
  /-- EXA1 SKNP Vx (R201). -/
  | sknp (x : Reg)
  /-- FX07 LD Vx, DT (R203). -/
  | ldVxDt (x : Reg)
  /-- FX0A LD Vx, K (R202). -/
  | ldVxK (x : Reg)
  /-- FX15 LD DT, Vx (R204). -/
  | ldDtVx (x : Reg)
  /-- FX18 LD ST, Vx (R205). -/
  | ldStVx (x : Reg)
  /-- FX1E ADD I, Vx (R161). -/
  | addI (x : Reg)
  /-- FX29 LD F, Vx (R162). -/
  | ldF (x : Reg)
  /-- FX33 LD B, Vx (R163). -/
  | ldB (x : Reg)
  /-- FX55 LD [I], Vx (R164). -/
  | stRegs (x : Reg)
  /-- FX65 LD Vx, [I] (R165). -/
  | ldRegs (x : Reg)
deriving DecidableEq, Repr

end Sys2Proof
end

