-- ==== Sys2Proof/WellFormed.lean ====
section
/-!
DEFINITION. Well-formedness. An `Instr` has no check left: R91's field widths are the types of its operands, and R101
gives every such term exactly one word. What can be ill-formed is a WORD. `legalWord` is the table of illegal words of
spec/30_encoding.md R97, written from R97 and not from the decoder, so that the two can be held against each other.
-/

namespace Sys2Proof

/-- R97, row 0x0: the only legal words whose first nibble is 0 are 0x0000, 0x00E0 and 0x00EE. -/
def legalD0 (w : Word) : Bool := w == 0x0000 || w == 0x00E0 || w == 0x00EE

/-- R97, rows 0x5 and 0x9: the last nibble is 0. -/
def legalXY0 (n : Nibble) : Bool := n == 0

/-- R97, row 0x8: the last nibble is none of 8, 9, A, B, C, D, F. -/
def legalD8 (n : Nibble) : Bool := !([0x8, 0x9, 0xA, 0xB, 0xC, 0xD, 0xF] : List Nibble).contains n

/-- R97, row 0xE: the last byte is 9E or A1. -/
def legalDE (kk : Byte) : Bool := kk == 0x9E || kk == 0xA1

/-- R97, row 0xF: the last byte is one of 07, 0A, 15, 18, 1E, 29, 33, 55, 65. -/
def legalDF (kk : Byte) : Bool := ([0x07, 0x0A, 0x15, 0x18, 0x1E, 0x29, 0x33, 0x55, 0x65] : List Byte).contains kk

/-- Is the word an instruction, by R97's table? The first nibbles not named there have no illegal word. -/
def legalWord (w : Word) : Bool :=
  let d1 := w.extractLsb' 12 4
  if d1 = 0x0 then legalD0 w
  else if d1 = 0x5 then legalXY0 (w.extractLsb' 0 4)
  else if d1 = 0x8 then legalD8 (w.extractLsb' 0 4)
  else if d1 = 0x9 then legalXY0 (w.extractLsb' 0 4)
  else if d1 = 0xE then legalDE (w.extractLsb' 0 8)
  else if d1 = 0xF then legalDF (w.extractLsb' 0 8)
  else true

end Sys2Proof
end

