-- ==== Sys2Proof/Decode.lean ====
section
/-!
DEFINITION. Decoding a word and encoding an instruction (spec/30_encoding.md sections 1 to 5). `decode` cuts the word
into the fields of R91 once and picks the row of R94; a word of no row is rejected. `encode` puts a row's fixed bits and
operand fields together again, most significant nibble first. `opcodeTable` is R94's own table of match and mask, beside
which the decoder is checked. The nibbles 1 to 7 of the 8XY_ family are the spec's decision D17, and the directions of
FX07, FX15 and FX18 its decision D18 (log entry 6).
-/

namespace Sys2Proof

/-- d1, the major opcode: w[15:12] (R91). -/
def fieldD1 (w : Word) : Nibble := w.extractLsb' 12 4

/-- X, w[11:8] (R91). -/
def fieldX (w : Word) : Reg := w.extractLsb' 8 4

/-- Y, w[7:4] (R91). -/
def fieldY (w : Word) : Reg := w.extractLsb' 4 4

/-- N, w[3:0] (R91). -/
def fieldN (w : Word) : Nibble := w.extractLsb' 0 4

/-- NN, w[7:0] (R91). -/
def fieldNN (w : Word) : Byte := w.extractLsb' 0 8

/-- NNN, w[11:0] (R91). -/
def fieldNNN (w : Word) : Imm12 := w.extractLsb' 0 12

/-- The 0x0 family: three words, all 16 bits fixed (R94 rows 1 to 3). -/
def decodeD0 (w : Word) : Option Instr :=
  if w = 0x0000 then some .nop
  else if w = 0x00E0 then some .cls
  else if w = 0x00EE then some .ret
  else none

/-- The 8XY_ family by its last nibble (R94 rows 11 to 19, R131). -/
def decodeD8 (n : Nibble) (x y : Reg) : Option Instr :=
  match n with
  | 0x0#4 => some (.ldReg x y)
  | 0x1#4 => some (.orReg x y)
  | 0x2#4 => some (.andReg x y)
  | 0x3#4 => some (.xorReg x y)
  | 0x4#4 => some (.addReg x y)
  | 0x5#4 => some (.subReg x y)
  | 0x6#4 => some (.shr x y)
  | 0x7#4 => some (.subnReg x y)
  | 0xE#4 => some (.shl x y)
  | _ => none

/-- The 0xE family by its last byte (R94 rows 25 and 26). -/
def decodeDE (kk : Byte) (x : Reg) : Option Instr :=
  match kk with
  | 0x9E#8 => some (.skp x)
  | 0xA1#8 => some (.sknp x)
  | _ => none

/-- The 0xF family by its last byte (R94 rows 27 to 35). -/
def decodeDF (kk : Byte) (x : Reg) : Option Instr :=
  match kk with
  | 0x07#8 => some (.ldVxDt x)
  | 0x0A#8 => some (.ldVxK x)
  | 0x15#8 => some (.ldDtVx x)
  | 0x18#8 => some (.ldStVx x)
  | 0x1E#8 => some (.addI x)
  | 0x29#8 => some (.ldF x)
  | 0x33#8 => some (.ldB x)
  | 0x55#8 => some (.stRegs x)
  | 0x65#8 => some (.ldRegs x)
  | _ => none

/-- The instruction of a word, or none where no row of R94 matches (R95, R97). The 16 values of d1 are all named, so the
last arm is never reached. -/
def decode (w : Word) : Option Instr :=
  match fieldD1 w with
  | 0x0#4 => decodeD0 w
  | 0x1#4 => some (.jp (fieldNNN w))
  | 0x2#4 => some (.call (fieldNNN w))
  | 0x3#4 => some (.seByte (fieldX w) (fieldNN w))
  | 0x4#4 => some (.sneByte (fieldX w) (fieldNN w))
  | 0x5#4 => if fieldN w = 0 then some (.seReg (fieldX w) (fieldY w)) else none
  | 0x6#4 => some (.ldByte (fieldX w) (fieldNN w))
  | 0x7#4 => some (.addByte (fieldX w) (fieldNN w))
  | 0x8#4 => decodeD8 (fieldN w) (fieldX w) (fieldY w)
  | 0x9#4 => if fieldN w = 0 then some (.sneReg (fieldX w) (fieldY w)) else none
  | 0xA#4 => some (.ldI (fieldNNN w))
  | 0xB#4 => some (.jpV0 (fieldNNN w))
  | 0xC#4 => some (.rnd (fieldX w) (fieldNN w))
  | 0xD#4 => some (.drw (fieldX w) (fieldY w) (fieldN w))
  | 0xE#4 => decodeDE (fieldNN w) (fieldX w)
  | 0xF#4 => decodeDF (fieldNN w) (fieldX w)
  | _ => none

/-- Why bytes are not an instruction. -/
inductive DecodeError where
  /-- The word matches no row of R94 (R97). -/
  | illegalInstruction (w : Word)
  /-- Fewer than the two bytes of a word (R90). -/
  | truncated
deriving DecidableEq, Repr

/-- The two bytes of a word in the order memory holds them: big-endian, the high byte at the lower address (R65). -/
def wordOfBytes (hi lo : Byte) : Word := hi ++ lo

/-- The byte at the lower address: w[15:8] (R65). -/
def highByte (w : Word) : Byte := w.extractLsb' 8 8

/-- The byte at the higher address: w[7:0] (R65). -/
def lowByte (w : Word) : Byte := w.extractLsb' 0 8

/-- Decoding bytes as memory holds them: the instruction and the bytes after it, or a rejection by name. -/
def decodeBytes : List Byte → Except DecodeError (Instr × List Byte)
  | hi :: lo :: rest =>
    match decode (wordOfBytes hi lo) with
    | some i => .ok (i, rest)
    | none => .error (.illegalInstruction (wordOfBytes hi lo))
  | _ => .error .truncated

/-- An instruction of format A: major opcode and NNN (R93). -/
def encodeA (d1 : Nibble) (nnn : Imm12) : Word := d1 ++ nnn

/-- An instruction of format XK, or of format X with a fixed last byte (R93). -/
def encodeXK (d1 : Nibble) (x : Reg) (nn : Byte) : Word := d1 ++ x ++ nn

/-- An instruction of format XYN, or of format XY with a fixed last nibble (R93). -/
def encodeXYN (d1 : Nibble) (x y : Reg) (n : Nibble) : Word := d1 ++ x ++ y ++ n

/-- The word of an instruction (R94). -/
def encode : Instr → Word
  | .nop => 0x0000
  | .cls => 0x00E0
  | .ret => 0x00EE
  | .jp nnn => encodeA 0x1 nnn
  | .call nnn => encodeA 0x2 nnn
  | .seByte x nn => encodeXK 0x3 x nn
  | .sneByte x nn => encodeXK 0x4 x nn
  | .seReg x y => encodeXYN 0x5 x y 0x0
  | .ldByte x nn => encodeXK 0x6 x nn
  | .addByte x nn => encodeXK 0x7 x nn
  | .ldReg x y => encodeXYN 0x8 x y 0x0
  | .orReg x y => encodeXYN 0x8 x y 0x1
  | .andReg x y => encodeXYN 0x8 x y 0x2
  | .xorReg x y => encodeXYN 0x8 x y 0x3
  | .addReg x y => encodeXYN 0x8 x y 0x4
  | .subReg x y => encodeXYN 0x8 x y 0x5
  | .shr x y => encodeXYN 0x8 x y 0x6
  | .subnReg x y => encodeXYN 0x8 x y 0x7
  | .shl x y => encodeXYN 0x8 x y 0xE
  | .sneReg x y => encodeXYN 0x9 x y 0x0
  | .ldI nnn => encodeA 0xA nnn
  | .jpV0 nnn => encodeA 0xB nnn
  | .rnd x nn => encodeXK 0xC x nn
  | .drw x y n => encodeXYN 0xD x y n
  | .skp x => encodeXK 0xE x 0x9E
  | .sknp x => encodeXK 0xE x 0xA1
  | .ldVxDt x => encodeXK 0xF x 0x07
  | .ldVxK x => encodeXK 0xF x 0x0A
  | .ldDtVx x => encodeXK 0xF x 0x15
  | .ldStVx x => encodeXK 0xF x 0x18
  | .addI x => encodeXK 0xF x 0x1E
  | .ldF x => encodeXK 0xF x 0x29
  | .ldB x => encodeXK 0xF x 0x33
  | .stRegs x => encodeXK 0xF x 0x55
  | .ldRegs x => encodeXK 0xF x 0x65

/-- The mnemonic of an instruction's row in spec/opcode_table.json, letter for letter (R100). -/
def Instr.mnemonic : Instr → String
  | .nop => "NOP"
  | .cls => "CLS"
  | .ret => "RET"
  | .jp _ => "JP_addr"
  | .call _ => "CALL_addr"
  | .seByte _ _ => "SE_Vx__byte"
  | .sneByte _ _ => "SNE_Vx__byte"
  | .seReg _ _ => "SE_Vx__Vy"
  | .ldByte _ _ => "LD_Vx__byte"
  | .addByte _ _ => "ADD_Vx__byte"
  | .ldReg _ _ => "LD_Vx__Vy"
  | .orReg _ _ => "OR_Vx__Vy"
  | .andReg _ _ => "AND_Vx__Vy"
  | .xorReg _ _ => "XOR_Vx__Vy"
  | .addReg _ _ => "ADD_Vx__Vy"
  | .subReg _ _ => "SUB_Vx__Vy"
  | .shr _ _ => "SHR_Vx__Vy"
  | .subnReg _ _ => "SUBN_Vx__Vy"
  | .shl _ _ => "SHL_Vx__Vy"
  | .sneReg _ _ => "SNE_Vx__Vy"
  | .ldI _ => "LD_I__addr"
  | .jpV0 _ => "JP_V0__addr"
  | .rnd _ _ => "RND_Vx__byte"
  | .drw _ _ _ => "DRW_Vx__Vy__nibble"
  | .skp _ => "SKP_Vx"
  | .sknp _ => "SKNP_Vx"
  | .ldVxDt _ => "LD_Vx__DT"
  | .ldVxK _ => "LD_Vx__K"
  | .ldDtVx _ => "LD_DT__Vx"
  | .ldStVx _ => "LD_ST__Vx"
  | .addI _ => "ADD_I__Vx"
  | .ldF _ => "LD_F__Vx"
  | .ldB _ => "LD_B__Vx"
  | .stRegs _ => "LD__I___Vx"
  | .ldRegs _ => "LD_Vx___I"

/-- A row of R94's opcode map: a word is the row's instruction when `w &&& mask = bits`. -/
structure OpcodeRow where
  mnemonic : String
  bits : Word
  mask : Word
deriving DecidableEq, Repr

/-- Rows 1 to 10 of R94. -/
def opcodeRows1 : List OpcodeRow :=
  [⟨"NOP", 0x0000, 0xFFFF⟩, ⟨"CLS", 0x00E0, 0xFFFF⟩, ⟨"RET", 0x00EE, 0xFFFF⟩, ⟨"JP_addr", 0x1000, 0xF000⟩,
   ⟨"CALL_addr", 0x2000, 0xF000⟩, ⟨"SE_Vx__byte", 0x3000, 0xF000⟩, ⟨"SNE_Vx__byte", 0x4000, 0xF000⟩,
   ⟨"SE_Vx__Vy", 0x5000, 0xF00F⟩, ⟨"LD_Vx__byte", 0x6000, 0xF000⟩, ⟨"ADD_Vx__byte", 0x7000, 0xF000⟩]

/-- Rows 11 to 24 of R94. -/
def opcodeRows2 : List OpcodeRow :=
  [⟨"LD_Vx__Vy", 0x8000, 0xF00F⟩, ⟨"OR_Vx__Vy", 0x8001, 0xF00F⟩, ⟨"AND_Vx__Vy", 0x8002, 0xF00F⟩,
   ⟨"XOR_Vx__Vy", 0x8003, 0xF00F⟩, ⟨"ADD_Vx__Vy", 0x8004, 0xF00F⟩, ⟨"SUB_Vx__Vy", 0x8005, 0xF00F⟩,
   ⟨"SHR_Vx__Vy", 0x8006, 0xF00F⟩, ⟨"SUBN_Vx__Vy", 0x8007, 0xF00F⟩, ⟨"SHL_Vx__Vy", 0x800E, 0xF00F⟩,
   ⟨"SNE_Vx__Vy", 0x9000, 0xF00F⟩, ⟨"LD_I__addr", 0xA000, 0xF000⟩, ⟨"JP_V0__addr", 0xB000, 0xF000⟩,
   ⟨"RND_Vx__byte", 0xC000, 0xF000⟩, ⟨"DRW_Vx__Vy__nibble", 0xD000, 0xF000⟩]

/-- Rows 25 to 35 of R94. -/
def opcodeRows3 : List OpcodeRow :=
  [⟨"SKP_Vx", 0xE09E, 0xF0FF⟩, ⟨"SKNP_Vx", 0xE0A1, 0xF0FF⟩, ⟨"LD_Vx__DT", 0xF007, 0xF0FF⟩,
   ⟨"LD_Vx__K", 0xF00A, 0xF0FF⟩, ⟨"LD_DT__Vx", 0xF015, 0xF0FF⟩, ⟨"LD_ST__Vx", 0xF018, 0xF0FF⟩,
   ⟨"ADD_I__Vx", 0xF01E, 0xF0FF⟩, ⟨"LD_F__Vx", 0xF029, 0xF0FF⟩, ⟨"LD_B__Vx", 0xF033, 0xF0FF⟩,
   ⟨"LD__I___Vx", 0xF055, 0xF0FF⟩, ⟨"LD_Vx___I", 0xF065, 0xF0FF⟩]

/-- The opcode map of R94, all 35 rows. -/
def opcodeTable : List OpcodeRow := opcodeRows1 ++ opcodeRows2 ++ opcodeRows3

/-- The first word of an instruction given as a number of `nbits` bits, bit 0 its least significant bit; the bits above
`nbits` are 0. An instruction is one word (R90), so that is all of it. -/
def tableWord (nbits w : Nat) : Word := BitVec.ofNat 16 (w % 2 ^ nbits)

/-- The instruction the decoder reads from a word of spec/opcode_table.json, laid out in memory's byte order. -/
def decodeTableWord (nbits w : Nat) : Option Instr :=
  match decodeBytes [highByte (tableWord nbits w), lowByte (tableWord nbits w)] with
  | .ok (i, _) => some i
  | .error _ => none

end Sys2Proof
end

