-- ==== Sys2Proof/Config.lean ====
section
/-!
DEFINITION. What the spec leaves to the implementation (spec/00_scope.md R7): the three access policies and the
font ROM, each taken by the model as an argument, and the free random draw of CXNN.
The spec's default values of the first four stand in Machine/FontRom.lean (`Config.default`).
-/

namespace Sys2Proof

/-- OOB_POLICY (R7, R68, decision D2): what a memory address of 4096 or more does. -/
inductive OobPolicy where
  | fault
  | wrap
deriving DecidableEq, Repr

/-- FONT_WRITE_POLICY (R7, R64, decision D3): what a program's store below address 80 does. -/
inductive FontWritePolicy where
  | fault
  | write
deriving DecidableEq, Repr

/-- KEY_INDEX_POLICY (R7, R199, decision D4): what EX9E and EXA1 do with a register value of 16 or more. -/
inductive KeyIndexPolicy where
  | fault
  | lowNibble
deriving DecidableEq, Repr

/-- The implementation parameters of one machine (R7). No instruction and no transaction changes them. -/
structure Config where
  /-- OOB_POLICY. -/
  oob : OobPolicy
  /-- FONT_WRITE_POLICY. -/
  fontWrite : FontWritePolicy
  /-- KEY_INDEX_POLICY. -/
  keyIndex : KeyIndexPolicy
  /-- FONT_ROM, the 80 bytes memory[0x000..0x04F] holds after reset (R63). -/
  fontRom : Vector Byte 80
deriving DecidableEq, Repr

/-- The free random draws (R42, decision D16, log entry 3): `freeRnd n` is the byte that the n-th draw of a run gives.
It has no body on purpose, so no claim can rest on a value of it. -/
opaque Config.freeRnd : Nat → Byte

end Sys2Proof
end

