-- ==== Sys2Proof/Machine/FontRom.lean ====
section
/-!
DEFINITION. The default values of the implementation parameters (spec/00_scope.md R7): the three policies of decisions
D2, D3 and D4, and the font table of spec/20_memory.md R63, which the spec takes from general knowledge (log entry 2).
-/

namespace Sys2Proof

/-- Glyphs 0 to 7 of R63's table, five bytes each, top row first. -/
def fontGlyphs0to7 : List Byte :=
  [0xF0, 0x90, 0x90, 0x90, 0xF0] ++ [0x20, 0x60, 0x20, 0x20, 0x70] ++ [0xF0, 0x10, 0xF0, 0x80, 0xF0] ++
  [0xF0, 0x10, 0xF0, 0x10, 0xF0] ++ [0x90, 0x90, 0xF0, 0x10, 0x10] ++ [0xF0, 0x80, 0xF0, 0x10, 0xF0] ++
  [0xF0, 0x80, 0xF0, 0x90, 0xF0] ++ [0xF0, 0x10, 0x20, 0x40, 0x40]

/-- Glyphs 8 to F of R63's table. -/
def fontGlyphs8toF : List Byte :=
  [0xF0, 0x90, 0xF0, 0x90, 0xF0] ++ [0xF0, 0x90, 0xF0, 0x10, 0xF0] ++ [0xF0, 0x90, 0xF0, 0x90, 0x90] ++
  [0xE0, 0x90, 0xE0, 0x90, 0xE0] ++ [0xF0, 0x80, 0x80, 0x80, 0xF0] ++ [0xE0, 0x90, 0x90, 0x90, 0xE0] ++
  [0xF0, 0x80, 0xF0, 0x80, 0xF0] ++ [0xF0, 0x80, 0xF0, 0x80, 0x80]

/-- FONT_ROM's default (R63, D15): the byte of address `a` is entry `a`. -/
def fontRomTable : Vector Byte 80 := ⟨(fontGlyphs0to7 ++ fontGlyphs8toF).toArray, by decide⟩

/-- Every parameter at the default of R7. -/
def Config.default : Config :=
  { oob := .fault, fontWrite := .fault, keyIndex := .fault, fontRom := fontRomTable }

end Sys2Proof
end

