-- ==== Sys2Proof/Machine/State.lean ====
section
/-!
DEFINITION. The state of the block (spec/10_state.md): everything R20 lists, the fault latch of R43, and two groups of
fields of the model's own: the parameters of R7 (`cfg`, log entry 1) and the random draws of R42 (`rnd`, `draws`, log
entry 3). Plain data; all behaviour stands in Ops, Operands, Flags and the instruction families.
-/

namespace Sys2Proof.Machine

/-- The fault causes of R220, each with what its FAULT_ADDR records. In the meanings an operation RAISES one of these
(`Except.error`), and the fault entry of R222 (`State.takeFault`) turns it into a next state with the latch written:
neither `exec` nor `step` ever answers `Host.Outcome.fault`, since the spec describes where each of them leads.
Safe: after it the machine is halted, and no instruction runs (R224). -/
inductive Fault where
  /-- Cause 1. Raised by every step at decode, when the word matches no row of R94. Safe: the core halts. -/
  | illegalInstruction
  /-- Cause 2. Raised by 2NNN (CALL) when SP = 16. Safe: the core halts. -/
  | stackOverflow
  /-- Cause 3. Raised by 00EE (RET) when SP = 0. Safe: the core halts. -/
  | stackUnderflow
  /-- Cause 4. Raised by fetch, DXYN, FX33, FX55 and FX65 at the address `addr` ≥ 4096 under OOB_POLICY = Fault.
  Safe: the core halts. -/
  | memoryBounds (addr : Nat)
  /-- Cause 5. Raised by FX33 and FX55 at the address `addr` < 80 under FONT_WRITE_POLICY = Fault. Safe: the core halts. -/
  | fontWrite (addr : Nat)
  /-- Cause 6. Raised by EX9E and EXA1 for the register value `vx` ≥ 16 under KEY_INDEX_POLICY = Fault. Safe: the core
  halts. -/
  | keyIndex (vx : Byte)
deriving DecidableEq, Repr

/-- Why the model gives an instruction no meaning. -/
inductive Refusal where
  /-- Answered by an arm of `exec` for an instruction the model has no meaning for. No arm does: all 35 have one.
  Safe: nothing can be proved of a run past it. -/
  | notModelled (mnemonic : String)
deriving DecidableEq, Repr

/-- The fault latch (R43): written by a fault, cleared by RESET, read by READ_STATUS and by STEP. -/
structure FaultLatch where
  /-- HALTED: true from a fault until RESET. -/
  halted : Bool
  /-- FAULT_CAUSE: the code of R220, 0 when no fault. -/
  cause : BitVec 3
  /-- FAULT_PC: the address of the instruction whose step faulted. -/
  pc : Word
  /-- FAULT_WORD: the instruction word, 0 when the fetch itself faulted. -/
  word : Word
  /-- FAULT_ADDR: the offending address, or the key value. -/
  addr : BitVec 17
deriving DecidableEq, Repr

/-- The latch when no fault has been recorded: every field 0 (R43, R46). -/
def FaultLatch.clear : FaultLatch := { halted := false, cause := 0, pc := 0, word := 0, addr := 0 }

/-- The bytes of memory that differ from what an unlisted address reads as, by rising address (Machine/Ops.lean gives
the reads, the writes and the canonical form). -/
abbrev Memory := List Host.Cell

/-- The state of the block (R20). -/
structure State where
  /-- The implementation parameters of R7. The model's own field: the same in every state of a run. -/
  cfg : Config
  /-- memory, 4096 bytes (R60). -/
  mem : Memory
  /-- PC (R27). -/
  pc : Word
  /-- V[0..15] (R21). -/
  v : Vector Byte 16
  /-- I (R30). -/
  index : Word
  /-- STACK[0..15] (R31). -/
  stack : Vector Word 16
  /-- SP, the number of stack entries in use, 0 to 16 (R31). -/
  sp : Fin 17
  /-- DT (R33). -/
  dt : Byte
  /-- ST (R33). -/
  st : Byte
  /-- KEY[0..15], true meaning pressed (R35). -/
  keys : Vector Bool 16
  /-- FB[0..2047] by rows (R37): bit x of row y is the pixel at x + 64*y. -/
  fb : Vector (BitVec 64) 32
  /-- The fault latch (R43). -/
  latch : FaultLatch
  /-- The random byte the next executed CXNN reads (R42). The model's own field. -/
  rnd : Byte
  /-- How many draws `Config.freeRnd` has given. The model's own field. -/
  draws : Nat
deriving DecidableEq, Repr

/-- What a step of this machine answers. -/
abbrev Answered := Host.Outcome State Fault Refusal

/-- The state after RESET and at power-on (R46, R250, R251), for a machine with the parameters `cfg`. Memory lists
nothing: an unlisted address reads as the font below 80 and as 0 elsewhere. -/
def State.resetWith (cfg : Config) : State where
  cfg := cfg
  mem := []
  pc := 0x200
  v := Vector.replicate 16 0
  index := 0
  stack := Vector.replicate 16 0
  sp := 0
  dt := 0
  st := 0
  keys := Vector.replicate 16 false
  fb := Vector.replicate 32 0
  latch := FaultLatch.clear
  rnd := Config.freeRnd 0
  draws := 1

/-- The state after reset of the machine with every parameter at its default (R7, R46). -/
def State.reset : State := State.resetWith Config.default

end Sys2Proof.Machine
end

