-- ==== Sys2Proof/Machine/Ops.lean ====
section
/-!
DEFINITION. The named operations over the state that the instructions share: writing one element, memory
(spec/20_memory.md), the stack (R32), the framebuffer (R38), and taking a fault (spec/60_exceptions.md R222).
An operation that can raise answers `Except Fault`, and `finish` ends an instruction with either.
-/

namespace Sys2Proof.Machine

/-! ### Writing one element of the state -/

/-- PC <- `a`. -/
def State.setPc (s : State) (a : Word) : State := { s with pc := a }

/-- V <- `v`, all sixteen registers. -/
def State.setV (s : State) (v : Vector Byte 16) : State := { s with v := v }

/-- I <- `a`. -/
def State.setIndex (s : State) (a : Word) : State := { s with index := a }

/-- STACK <- `k` and SP <- `n`. -/
def State.setStack (s : State) (k : Vector Word 16) (n : Fin 17) : State := { s with stack := k, sp := n }

/-- DT <- `b`. -/
def State.setDt (s : State) (b : Byte) : State := { s with dt := b }

/-- ST <- `b`. -/
def State.setSt (s : State) (b : Byte) : State := { s with st := b }

/-- KEY <- `k`, all sixteen keys. -/
def State.setKeys (s : State) (k : Vector Bool 16) : State := { s with keys := k }

/-- FB <- `f`, the whole framebuffer. -/
def State.setFb (s : State) (f : Vector (BitVec 64) 32) : State := { s with fb := f }

/-- The fault latch <- `l`. -/
def State.setLatch (s : State) (l : FaultLatch) : State := { s with latch := l }

/-- memory <- `m`. -/
def State.setMem (s : State) (m : Memory) : State := { s with mem := m }

/-- The random draws <- `r`, `n`. -/
def State.setRnd (s : State) (r : Byte) (n : Nat) : State := { s with rnd := r, draws := n }

/-! ### Memory as data -/

/-- What an address that is not listed reads as: the reset contents of R46, FONT_ROM below 80 and 0 elsewhere. -/
def Memory.unlisted (rom : Vector Byte 80) (a : Nat) : Byte := if h : a < 80 then rom[a] else 0

/-- The listed byte of an address. -/
def Memory.find : Memory → Nat → Option Byte
  | [], _ => none
  | (b, w) :: m, a => if a = b then some w else Memory.find m a

/-- The byte of memory at an address (R60, R75). -/
def Memory.read (rom : Vector Byte 80) (m : Memory) (a : Nat) : Byte := (m.find a).getD (Memory.unlisted rom a)

/-- List the byte `v` at `a`, keeping the addresses rising. -/
def Memory.insert : Memory → Nat → Byte → Memory
  | [], a, v => [(a, v)]
  | (b, w) :: m, a, v =>
    if a < b then (a, v) :: (b, w) :: m else if a = b then (a, v) :: m else (b, w) :: Memory.insert m a v

/-- List nothing at `a`. -/
def Memory.erase : Memory → Nat → Memory
  | [], _ => []
  | (b, w) :: m, a => if a = b then Memory.erase m a else (b, w) :: Memory.erase m a

/-- memory[a] <- v, in the canonical form: a byte equal to what the unlisted address reads as is not listed. -/
def Memory.write (rom : Vector Byte 80) (m : Memory) (a : Nat) (v : Byte) : Memory :=
  if v = Memory.unlisted rom a then m.erase a else m.insert a v

/-- The bytes `bs` at `a`, `a + 1`, … in ascending order. -/
def Memory.writeAll (rom : Vector Byte 80) : Memory → Nat → List Byte → Memory
  | m, _, [] => m
  | m, a, b :: bs => Memory.writeAll rom (m.write rom a b) (a + 1) bs

/-- The canonical form from the address `lo` on. -/
def Memory.wfFrom (rom : Vector Byte 80) : Nat → Memory → Bool
  | _, [] => true
  | lo, (a, v) :: m =>
    decide (lo ≤ a) && decide (a < 4096) && decide (v ≠ Memory.unlisted rom a) && Memory.wfFrom rom (a + 1) m

/-- The canonical form of memory: addresses strictly rising and inside the 4096 bytes of R60, and no entry equal to what
its address reads as unlisted. -/
def Memory.wf (rom : Vector Byte 80) (m : Memory) : Bool := Memory.wfFrom rom 0 m

/-! ### Memory accesses -/

/-- MemAddr (R68): the memory index of an address computed as an unbounded number. -/
def memAddr (p : OobPolicy) (a : Nat) : Except Fault Nat :=
  if a < 4096 then .ok a
  else match p with
    | .fault => .error (.memoryBounds a)
    | .wrap => .ok (a % 4096)

/-- The index a program's store goes to: MemAddr, then the font check of R64. -/
def storeAddr (c : Config) (a : Nat) : Except Fault Nat :=
  match memAddr c.oob a with
  | .error f => .error f
  | .ok b =>
    if b < 80 then
      match c.fontWrite with
      | .fault => .error (.fontWrite b)
      | .write => .ok b
    else .ok b

/-- The byte of the state's memory at index `a`. -/
def State.byteAt (s : State) (a : Nat) : Byte := s.mem.read s.cfg.fontRom a

/-- MemRead(a, 1) (R11). -/
def State.memRead (s : State) (a : Nat) : Except Fault Byte :=
  match memAddr s.cfg.oob a with
  | .error f => .error f
  | .ok b => .ok (s.byteAt b)

/-- MemWrite(a, 1, v) (R11). -/
def State.memWrite (s : State) (a : Nat) (v : Byte) : Except Fault State :=
  match storeAddr s.cfg a with
  | .error f => .error f
  | .ok b => .ok (s.setMem (s.mem.write s.cfg.fontRom b v))

/-- `n` one-byte reads at `a`, `a + 1`, … in ascending order (R66); the first that raises ends it. -/
def State.readBytes (s : State) : Nat → Nat → Except Fault (List Byte)
  | _, 0 => .ok []
  | a, n + 1 =>
    match s.memRead a with
    | .error f => .error f
    | .ok b =>
      match s.readBytes (a + 1) n with
      | .error f => .error f
      | .ok bs => .ok (b :: bs)

/-- One-byte writes of `bs` at `a`, `a + 1`, … in ascending order (R66); the first that raises ends it. -/
def State.writeBytes : State → Nat → List Byte → Except Fault State
  | s, _, [] => .ok s
  | s, a, b :: bs =>
    match s.memWrite a b with
    | .error f => .error f
    | .ok t => State.writeBytes t (a + 1) bs

/-- The fetch of R65: the two bytes at PC and PC+1, big-endian. -/
def State.fetch (s : State) : Except Fault Word :=
  match s.memRead s.pc.toNat with
  | .error f => .error f
  | .ok hi =>
    match s.memRead (s.pc.toNat + 1) with
    | .error f => .error f
    | .ok lo => .ok (wordOfBytes hi lo)

/-- The fetch advance of R65: PC <- (PC + 2) mod 2^16. -/
def State.advance (s : State) : State := s.setPc (s.pc + 2)

/-! ### The stack -/

/-- Push (R32): StackOverflow when SP = 16, else STACK[SP] <- r; SP <- SP + 1. -/
def State.push (s : State) (r : Word) : Except Fault State :=
  if h : s.sp.val < 16 then .ok (s.setStack (s.stack.set s.sp.val r) ⟨s.sp.val + 1, by omega⟩)
  else .error .stackOverflow

/-- Pop (R32): StackUnderflow when SP = 0, else SP <- SP - 1 and the value STACK[SP], which stays in the stack. -/
def State.pop (s : State) : Except Fault (Word × State) :=
  if h : 0 < s.sp.val then
    .ok (s.stack[s.sp.val - 1]'(by have := s.sp.isLt; omega), s.setStack s.stack ⟨s.sp.val - 1, by have := s.sp.isLt; omega⟩)
  else .error .stackUnderflow

/-! ### The framebuffer -/

/-- FB[p], for p = x + 64*y below 2048 (R37). -/
def pixel (f : Vector (BitVec 64) 32) (p : Nat) : Bool :=
  if h : p / 64 < 32 then f[p / 64].getLsbD (p % 64) else false

/-- FBClear (R38). -/
def fbClear : Vector (BitVec 64) 32 := Vector.replicate 32 0

/-- What FBToggle(p) leaves in FB: pixel p inverted (R38). Its answer, the old value, is `pixel f p`. -/
def fbToggle (f : Vector (BitVec 64) 32) (p : Nat) : Vector (BitVec 64) 32 :=
  if h : p / 64 < 32 then f.set (p / 64) (f[p / 64] ^^^ BitVec.twoPow 64 (p % 64)) else f

/-! ### The keys -/

/-- KEY[k] (R35). -/
def State.keyAt (s : State) (k : Nat) : Bool := if h : k < 16 then s.keys[k] else false

/-! ### Taking a fault -/

/-- FAULT_CAUSE's code (R220, decision D11). -/
def Fault.code : Fault → BitVec 3
  | .illegalInstruction => 1
  | .stackOverflow => 2
  | .stackUnderflow => 3
  | .memoryBounds _ => 4
  | .fontWrite _ => 5
  | .keyIndex _ => 6

/-- FAULT_ADDR (R220): the address, the register value, or 0. -/
def Fault.info : Fault → BitVec 17
  | .illegalInstruction => 0
  | .stackOverflow => 0
  | .stackUnderflow => 0
  | .memoryBounds a => BitVec.ofNat 17 a
  | .fontWrite a => BitVec.ofNat 17 a
  | .keyIndex vx => vx.setWidth 17

/-- Fault entry (R222): `a` is the faulting instruction's address, `w` its word, or 0 where the fetch itself faulted.
`s` is the state without the step's own changes; PC goes back to `a`, and the latch records the fault. There is no
return from a fault: only RESET leaves the halted state (R225; `State.resetWith`). -/
def State.takeFault (s : State) (f : Fault) (a w : Word) : State :=
  (s.setPc a).setLatch { halted := true, cause := f.code, pc := a, word := w, addr := f.info }

/-- `raise` inside the instruction `i` (R12, R222). `s` is the state the instruction began with, whose PC is the fetch
address plus 2 (R27); the word is the instruction's own. -/
def State.raise (s : State) (i : Instr) (f : Fault) : State := s.takeFault f (s.pc - 2) (encode i)

/-- The end of an instruction: the state it made, or the fault it raised with none of its changes (R12). -/
def State.finish (s : State) (i : Instr) (r : Except Fault State) : Answered :=
  match r with
  | .ok t => .next t
  | .error f => .next (s.raise i f)

/-! ### Placing a word where the next step fetches it -/

/-- Both bytes at PC are in memory. -/
def State.canFetch (s : State) : Bool :=
  match memAddr s.cfg.oob s.pc.toNat, memAddr s.cfg.oob (s.pc.toNat + 1) with
  | .ok _, .ok _ => true
  | _, _ => false

/-- A state whose next step fetches: a halted core is let run again with its latch cleared, and a PC that no fetch can
read goes to the entry point 0x200 (R252). Every other state is left as it is. -/
def State.readyToFetch (s : State) : State :=
  let t := if s.latch.halted then s.setLatch FaultLatch.clear else s
  if t.canFetch then t else t.setPc 0x200

/-- The word `w` at PC, high byte first (R65), stored as LOAD stores, without the font check. -/
def State.placeWord (s : State) (w : Word) : State :=
  s.setMem ((s.mem.write s.cfg.fontRom (s.pc.toNat % 4096) (highByte w)).write s.cfg.fontRom
    ((s.pc.toNat + 1) % 4096) (lowByte w))

end Sys2Proof.Machine
end

