-- ==== Sys2Proof/Machine/Operands.lean ====
section
/-!
DEFINITION. The operand forms (spec/30_encoding.md R91, R92): registers, immediates, the effective address I + k (R166),
the key index (R199), the glyph address (R162), the decimal digits (R163) and the skip (R110).
-/

namespace Sys2Proof.Machine

/-- V[x] (R21). -/
def State.reg (s : State) (x : Reg) : Byte := s.v[x.toNat]'(x.isLt)

/-- V[x] <- b (R21): no register is hard-wired. -/
def State.setReg (s : State) (x : Reg) (b : Byte) : State := s.setV (s.v.set x.toNat b x.isLt)

/-- V[k] by number. -/
def State.regNo (s : State) (k : Nat) : Byte := if h : k < 16 then s.v[k] else 0

/-- V[0], …, V[x], in ascending order (R164). -/
def State.regsUpTo (s : State) (x : Reg) : List Byte := (List.range (x.toNat + 1)).map s.regNo

/-- V[k], V[k+1], … <- the bytes, in ascending order (R165). -/
def setRegsFrom : Vector Byte 16 → Nat → List Byte → Vector Byte 16
  | v, _, [] => v
  | v, k, b :: bs => setRegsFrom (if h : k < 16 then v.set k b else v) (k + 1) bs

/-- zext_16(NNN) (R92). -/
def zextAddr (nnn : Imm12) : Word := nnn.setWidth 16

/-- zext_16 of a byte (R9). -/
def zextByte (b : Byte) : Word := b.setWidth 16

/-- The effective address I + k, an unbounded number without wrap-around (R166). -/
def State.effAddr (s : State) (k : Nat) : Nat := s.index.toNat + k

/-- KeyIndex(vx) (R199). -/
def keyIndex (p : KeyIndexPolicy) (vx : Byte) : Except Fault Nat :=
  if vx.toNat < 16 then .ok vx.toNat
  else match p with
    | .fault => .error (.keyIndex vx)
    | .lowNibble => .ok (vx &&& 0x0F).toNat

/-- The lowest-numbered pressed key, if one is pressed (R202). -/
def State.lowestKey (s : State) : Option Nat := (List.range 16).find? s.keyAt

/-- The address of the glyph of the low nibble (R162). -/
def glyphAddr (vx : Byte) : Word := zextByte (vx &&& 0x0F) * 5

/-- The hundreds, tens and ones digits (R163). -/
def bcdDigits (vx : Byte) : List Byte :=
  [BitVec.ofNat 8 (vx.toNat / 100), BitVec.ofNat 8 (vx.toNat / 10 % 10), BitVec.ofNat 8 (vx.toNat % 10)]

/-- A skip: PC <- (PC + 2) mod 2^16 when the condition holds (R110). -/
def State.skipIf (s : State) (c : Bool) : State := if c then s.setPc (s.pc + 2) else s

end Sys2Proof.Machine
end

