-- ==== Sys2Proof/Machine/Flags.lean ====
section
/-!
DEFINITION. Every flag computation (spec/41_alu.md R138 to R142, spec/43_display.md R181). The one flag is VF (R24); an
instruction with a result and a flag writes V[X] first and VF last (R25, R130).
-/

namespace Sys2Proof.Machine

/-- A condition as the byte VF gets: 1 or 0. -/
def flagByte (c : Bool) : Byte := if c then 1 else 0

/-- Carry out of bit 7: the unsigned sum is at least 256 (R138). -/
def carryFlag (a b : Byte) : Byte := flagByte (decide (256 ≤ a.toNat + b.toNat))

/-- No borrow in a - b: a ≥ b (R139, R141). -/
def noBorrowFlag (a b : Byte) : Byte := flagByte (decide (b.toNat ≤ a.toNat))

/-- The bit a right shift shifts out: old bit 0 (R140). -/
def shiftedOutRight (a : Byte) : Byte := a &&& 1

/-- The bit a left shift shifts out: old bit 7 (R142). -/
def shiftedOutLeft (a : Byte) : Byte := a >>> 7

/-- V[x] <- r, then VF <- f (R25, R130): with x = 15 the flag is what VF keeps. -/
def State.setRegFlag (s : State) (x : Reg) (r f : Byte) : State := (s.setReg x r).setReg VF f

end Sys2Proof.Machine
end

