-- ==== Sys2Proof/Machine/Alu.lean ====
section
/-!
DEFINITION. The register and ALU instructions (spec/41_alu.md). Operands are read before any write (R13, R130); 8-bit
results wrap (R144).
-/

namespace Sys2Proof.Machine

/-- LD Vx, byte (R132). -/
def execLdByte (x : Reg) (nn : Byte) (s : State) : Answered := .next (s.setReg x nn)

/-- ADD Vx, byte (R133): no flag. -/
def execAddByte (x : Reg) (nn : Byte) (s : State) : Answered := .next (s.setReg x (s.reg x + nn))

/-- LD Vx, Vy (R134). -/
def execLdReg (x y : Reg) (s : State) : Answered := .next (s.setReg x (s.reg y))

/-- OR Vx, Vy (R135): no flag (decision D9). -/
def execOrReg (x y : Reg) (s : State) : Answered := .next (s.setReg x (s.reg x ||| s.reg y))

/-- AND Vx, Vy (R136): no flag (decision D9). -/
def execAndReg (x y : Reg) (s : State) : Answered := .next (s.setReg x (s.reg x &&& s.reg y))

/-- XOR Vx, Vy (R137): no flag (decision D9). -/
def execXorReg (x y : Reg) (s : State) : Answered := .next (s.setReg x (s.reg x ^^^ s.reg y))

/-- ADD Vx, Vy (R138). -/
def execAddReg (x y : Reg) (s : State) : Answered :=
  .next (s.setRegFlag x (s.reg x + s.reg y) (carryFlag (s.reg x) (s.reg y)))

/-- SUB Vx, Vy (R139). -/
def execSubReg (x y : Reg) (s : State) : Answered :=
  .next (s.setRegFlag x (s.reg x - s.reg y) (noBorrowFlag (s.reg x) (s.reg y)))

/-- SHR Vx, Vy (R140): V[Y] is not read. -/
def execShr (x _y : Reg) (s : State) : Answered :=
  .next (s.setRegFlag x (s.reg x >>> 1) (shiftedOutRight (s.reg x)))

/-- SUBN Vx, Vy (R141). -/
def execSubnReg (x y : Reg) (s : State) : Answered :=
  .next (s.setRegFlag x (s.reg y - s.reg x) (noBorrowFlag (s.reg y) (s.reg x)))

/-- SHL Vx, Vy (R142): V[Y] is not read. -/
def execShl (x _y : Reg) (s : State) : Answered :=
  .next (s.setRegFlag x (s.reg x <<< 1) (shiftedOutLeft (s.reg x)))

/-- The draw is used up: the next CXNN reads a fresh free value (R42, log entry 3). -/
def State.nextDraw (s : State) : State := s.setRnd (Config.freeRnd s.draws) (s.draws + 1)

/-- RND Vx, byte (R143). -/
def execRnd (x : Reg) (nn : Byte) (s : State) : Answered := .next ((s.setReg x (s.rnd &&& nn)).nextDraw)

end Sys2Proof.Machine
end

