-- ==== Sys2Proof/Machine/ControlFlow.lean ====
section
/-!
DEFINITION. The control flow instructions (spec/40_control_flow.md). A meaning gets the state after the fetch advance: its
PC is the instruction's address plus 2 (R27).
-/

namespace Sys2Proof.Machine

/-- NOP (R111). -/
def execNop (s : State) : Answered := .next s

/-- RET (R112). -/
def execRet (s : State) : Answered :=
  s.finish .ret (match s.pop with
    | .error f => .error f
    | .ok (a, t) => .ok (t.setPc a))

/-- JP addr (R113). -/
def execJp (nnn : Imm12) (s : State) : Answered := .next (s.setPc (zextAddr nnn))

/-- CALL addr (R114). -/
def execCall (nnn : Imm12) (s : State) : Answered :=
  s.finish (.call nnn) (match s.push s.pc with
    | .error f => .error f
    | .ok t => .ok (t.setPc (zextAddr nnn)))

/-- SE Vx, byte (R115). -/
def execSeByte (x : Reg) (nn : Byte) (s : State) : Answered := .next (s.skipIf (s.reg x == nn))

/-- SNE Vx, byte (R116). -/
def execSneByte (x : Reg) (nn : Byte) (s : State) : Answered := .next (s.skipIf (s.reg x != nn))

/-- SE Vx, Vy (R117). -/
def execSeReg (x y : Reg) (s : State) : Answered := .next (s.skipIf (s.reg x == s.reg y))

/-- SNE Vx, Vy (R118). -/
def execSneReg (x y : Reg) (s : State) : Answered := .next (s.skipIf (s.reg x != s.reg y))

/-- JP V0, addr (R119). -/
def execJpV0 (nnn : Imm12) (s : State) : Answered := .next (s.setPc (zextAddr nnn + zextByte (s.reg 0)))

end Sys2Proof.Machine
end

