-- ==== Sys2Proof/Machine/Display.lean ====
section
/-!
DEFINITION. The display instructions and the sprite datapath (spec/43_display.md). A picture in the making is the
framebuffer with the collision so far.
-/

namespace Sys2Proof.Machine

/-- The framebuffer and whether a toggle has turned a set pixel off. -/
abbrev Picture := Vector (BitVec 64) 32 × Bool

/-- FBToggle(p), and the collision it adds (R181). -/
def togglePixel (p : Nat) (pic : Picture) : Picture := (fbToggle pic.1 p, pic.2 || pixel pic.1 p)

/-- The pixel that column `c` of row `r` of a sprite at (`x0`, `y0`) lies on; coordinates wrap (R181). -/
def spritePixel (x0 y0 r c : Nat) : Nat := (x0 + c) % 64 + 64 * ((y0 + r) % 32)

/-- The columns `c`, …, 7 of one sprite row (R181), given as the number `k` of columns left: c = 8 - k. Bit 7 of the row
is column 0 (decision D12). -/
def drawColumns (x0 y0 r : Nat) (row : Byte) : Nat → Picture → Picture
  | 0, pic => pic
  | k + 1, pic =>
    drawColumns x0 y0 r row k
      (if row.getLsbD k then togglePixel (spritePixel x0 y0 r (7 - k)) pic else pic)

/-- The rows of a sprite from row `r` on (R181). -/
def drawRows (x0 y0 : Nat) : Nat → List Byte → Picture → Picture
  | _, [], pic => pic
  | r, row :: rows, pic => drawRows x0 y0 (r + 1) rows (drawColumns x0 y0 r row 8 pic)

/-- CLS (R180). -/
def execCls (s : State) : Answered := .next (s.setFb fbClear)

/-- DRW's effect once its rows are read: the framebuffer, then VF (R181). -/
def State.draw (s : State) (x y : Reg) (rows : List Byte) : State :=
  let pic := drawRows (s.reg x).toNat (s.reg y).toNat 0 rows (s.fb, false)
  (s.setFb pic.1).setReg VF (flagByte pic.2)

/-- DRW Vx, Vy, nibble (R181): all sprite reads first, so a fault leaves every pixel. -/
def execDrw (x y : Reg) (n : Nibble) (s : State) : Answered :=
  s.finish (.drw x y n) (match s.readBytes (s.effAddr 0) n.toNat with
    | .error f => .error f
    | .ok rows => .ok (s.draw x y rows))

end Sys2Proof.Machine
end

