-- ==== Sys2Proof/Machine/IndexMemory.lean ====
section
/-!
DEFINITION. The index register and memory instructions (spec/42_index_memory.md). FX33, FX55 and FX65 leave I unchanged
(decision D10); every address is I + k unbounded, checked by MemAddr and, for a store, by the font rule (R11, R166).
-/

namespace Sys2Proof.Machine

/-- LD I, addr (R160). -/
def execLdI (nnn : Imm12) (s : State) : Answered := .next (s.setIndex (zextAddr nnn))

/-- ADD I, Vx (R161): modulo 2^16, no flag (decision D9). -/
def execAddI (x : Reg) (s : State) : Answered := .next (s.setIndex (s.index + zextByte (s.reg x)))

/-- LD F, Vx (R162): the low nibble (decision D14). -/
def execLdF (x : Reg) (s : State) : Answered := .next (s.setIndex (glyphAddr (s.reg x)))

/-- LD B, Vx (R163). -/
def execLdB (x : Reg) (s : State) : Answered :=
  s.finish (.ldB x) (s.writeBytes (s.effAddr 0) (bcdDigits (s.reg x)))

/-- LD [I], Vx (R164). -/
def execStRegs (x : Reg) (s : State) : Answered :=
  s.finish (.stRegs x) (s.writeBytes (s.effAddr 0) (s.regsUpTo x))

/-- LD Vx, [I] (R165). -/
def execLdRegs (x : Reg) (s : State) : Answered :=
  s.finish (.ldRegs x) (match s.readBytes (s.effAddr 0) (x.toNat + 1) with
    | .error f => .error f
    | .ok bs => .ok (s.setV (setRegsFrom s.v 0 bs)))

end Sys2Proof.Machine
end

