-- ==== Sys2Proof/Machine/InputTimers.lean ====
section
/-!
DEFINITION. The input latch and timer instructions (spec/44_input_timers.md). The directions of FX07, FX15 and FX18 are
the spec's decision D18 (log entry 6).
-/

namespace Sys2Proof.Machine

/-- SKP Vx (R200). -/
def execSkp (x : Reg) (s : State) : Answered :=
  s.finish (.skp x) (match keyIndex s.cfg.keyIndex (s.reg x) with
    | .error f => .error f
    | .ok k => .ok (s.skipIf (s.keyAt k)))

/-- SKNP Vx (R201). -/
def execSknp (x : Reg) (s : State) : Answered :=
  s.finish (.sknp x) (match keyIndex s.cfg.keyIndex (s.reg x) with
    | .error f => .error f
    | .ok k => .ok (s.skipIf (!s.keyAt k)))

/-- LD Vx, DT (R203). -/
def execLdVxDt (x : Reg) (s : State) : Answered := .next (s.setReg x s.dt)

/-- LD Vx, K (R202): the lowest pressed key, or PC back to this instruction's address. -/
def execLdVxK (x : Reg) (s : State) : Answered :=
  match s.lowestKey with
  | none => .next (s.setPc (s.pc - 2))
  | some k => .next (s.setReg x (BitVec.ofNat 8 k))

/-- LD DT, Vx (R204). -/
def execLdDtVx (x : Reg) (s : State) : Answered := .next (s.setDt (s.reg x))

/-- LD ST, Vx (R205). -/
def execLdStVx (x : Reg) (s : State) : Answered := .next (s.setSt (s.reg x))

end Sys2Proof.Machine
end

