-- ==== Sys2Proof/Machine/Step.lean ====
section
/-!
DEFINITION. One STEP (spec/30_encoding.md R95) and placing a word where the next step fetches it.
-/

namespace Sys2Proof.Machine

/-- STEP (R95): nothing while halted (R224); otherwise fetch (R65), decode (R94, R97) and execute. A fault at fetch or
decode is taken as every fault is (R222), with FAULT_WORD 0 where the fetch itself faulted. Its random input is the
field `rnd` (R42). -/
def step (s : State) : Host.Outcome State Fault Refusal :=
  if s.latch.halted then .next s
  else match s.fetch with
    | .error f => .next (s.takeFault f s.pc 0)
    | .ok w =>
      match decode w with
      | none => .next (s.takeFault .illegalInstruction s.pc w)
      | some i => exec i s.advance

/-- `s` with the instruction word that `w` gives in `nbits` bits where the next step fetches it (log entry 7). A halted
core is let run and a PC that cannot be fetched from goes to 0x200; nothing else changes but the two bytes. -/
def State.withFetchWord (s : State) (nbits w : Nat) : State := s.readyToFetch.placeWord (tableWord nbits w)

end Sys2Proof.Machine
end

