-- ==== Sys2Proof/Machine/Transactions.lean ====
section
/-!
DEFINITION. The host's transactions (spec/10_state.md R40): each is atomic and reads the state the one before left (R14,
R41). All but STEP act whether or not the core is halted (R224).
-/

namespace Sys2Proof.Machine

/-- A transaction with its inputs (R40). -/
inductive Transaction where
  /-- STEP(rnd) (R95). -/
  | step (rnd : Byte)
  /-- TICK (R34). -/
  | tick
  /-- KEY(index, pressed) (R36). -/
  | key (index : Byte) (pressed : Bool)
  /-- LOAD(bytes) (R70). -/
  | load (bytes : List Byte)
  /-- RESET (R250). -/
  | reset
  /-- READ_DISPLAY (R39). -/
  | readDisplay
  /-- READ_STATUS (R43). -/
  | readStatus
deriving DecidableEq, Repr

/-- What the host gets back (R40, R229). The two errors are answers, not faults. -/
inductive Answer where
  /-- Done, with no output. -/
  | ok
  /-- KEY rejected: the index is 16 or more (R36). -/
  | keyRange
  /-- LOAD rejected: more than 3584 bytes (R70). -/
  | loadCapacity
  /-- The 2048 pixels in index order (R39). -/
  | display (pixels : List Bool)
  /-- The fault latch and ST (R43). -/
  | status (latch : FaultLatch) (st : Byte)
deriving DecidableEq, Repr

/-- A timer after TICK: one less, floored at 0 (R34). -/
def tickTimer (b : Byte) : Byte := if b = 0 then 0 else b - 1

/-- TICK (R34). -/
def State.tick (s : State) : State := (s.setDt (tickTimer s.dt)).setSt (tickTimer s.st)

/-- KEY[k] <- pressed, for k below 16 (R36). -/
def State.setKey (s : State) (k : Nat) (pressed : Bool) : State :=
  if h : k < 16 then s.setKeys (s.keys.set k pressed) else s

/-- LOAD of bytes that fit: memory[0x200 + k] <- bytes[k] (R70), without the font check (R64). -/
def State.load (s : State) (bytes : List Byte) : State :=
  s.setMem (s.mem.writeAll s.cfg.fontRom 0x200 bytes)

/-- The framebuffer in index order (R39). -/
def State.displayBits (s : State) : List Bool := (List.range 2048).map (pixel s.fb)

/-- STEP with its random input given (R40, R42): the input stands in `rnd` during the step and leaves no trace, since the
block keeps no random state between transactions (R45). -/
def stepWith (r : Byte) (s : State) : Host.Outcome State Fault Refusal :=
  match step (s.setRnd r s.draws) with
  | .next t => .next (t.setRnd s.rnd s.draws)
  | .fault f => .fault f
  | .refused x => .refused x

/-- One transaction: the state it leaves and the answer. -/
def transact (tr : Transaction) (s : State) : Host.Outcome (State × Answer) Fault Refusal :=
  match tr with
  | .step r =>
    match stepWith r s with
    | .next t => .next (t, .ok)
    | .fault f => .fault f
    | .refused x => .refused x
  | .tick => .next (s.tick, .ok)
  | .key index pressed => if index.toNat < 16 then .next (s.setKey index.toNat pressed, .ok) else .next (s, .keyRange)
  | .load bytes => if bytes.length ≤ 3584 then .next (s.load bytes, .ok) else .next (s, .loadCapacity)
  | .reset => .next (State.resetWith s.cfg, .ok)
  | .readDisplay => .next (s, .display s.displayBits)
  | .readStatus => .next (s, .status s.latch s.st)

end Sys2Proof.Machine
end

