-- ==== Sys2Proof/Safety.lean ====
section
/-!
DEFINITION. The words the claims use: which parts of the state an operation changes, the record a fault leaves (R222),
the invariants of the block, and a run that has not failed (R262).
-/

namespace Sys2Proof.Machine

/-- The parts of the state that instructions and transactions change. -/
inductive Part where
  /-- One general register. -/
  | v (r : Reg)
  | pc
  | index
  /-- STACK and SP. -/
  | stack
  | dt
  | st
  | keys
  | fb
  | latch
  /-- Every byte of memory. -/
  | mem
  /-- The random draws, the model's own. -/
  | draws
deriving DecidableEq, Repr

/-- From `s` to `t` nothing changed outside the listed parts; memory is compared byte by byte, by what each address
reads as. -/
structure ChangesOnly (ps : List Part) (s t : State) : Prop where
  cfg : t.cfg = s.cfg
  regs : ∀ r, Part.v r ∉ ps → t.reg r = s.reg r
  pc : Part.pc ∉ ps → t.pc = s.pc
  index : Part.index ∉ ps → t.index = s.index
  stack : Part.stack ∉ ps → t.stack = s.stack ∧ t.sp = s.sp
  dt : Part.dt ∉ ps → t.dt = s.dt
  st : Part.st ∉ ps → t.st = s.st
  keys : Part.keys ∉ ps → t.keys = s.keys
  fb : Part.fb ∉ ps → t.fb = s.fb
  latch : Part.latch ∉ ps → t.latch = s.latch
  mem : Part.mem ∉ ps → ∀ a, t.byteAt a = s.byteAt a
  draws : Part.draws ∉ ps → t.rnd = s.rnd ∧ t.draws = s.draws

/-- `t` is `s` after a fault with this cause code, of the instruction at `a` with the word `w` and this FAULT_ADDR
(R222): the latch is written, PC is the faulting instruction's address, and nothing else changed. -/
structure FaultTaken (cause : BitVec 3) (a w : Word) (info : Nat) (s t : State) : Prop where
  halted : t.latch.halted = true
  cause : t.latch.cause = cause
  faultPc : t.latch.pc = a
  word : t.latch.word = w
  addr : t.latch.addr = BitVec.ofNat 17 info
  pc : t.pc = a
  rest : ChangesOnly [.pc, .latch] s t

/-- A step can run an instruction: HALTED = 0 (R224). -/
def Running (s : State) : Prop := s.latch.halted = false

/-- Memory is in its canonical form. -/
def MemCanonical (s : State) : Prop := s.mem.wf s.cfg.fontRom = true

/-- Under FONT_WRITE_POLICY = Fault the font region holds FONT_ROM (R64). -/
def FontIntact (s : State) : Prop := s.cfg.fontWrite = .fault → ∀ a, (h : a < 80) → s.byteAt a = s.cfg.fontRom[a]

/-- What the latch of a halted core says agrees with the rest of the state (R220, R222), by cause code. -/
def CauseSound (s : State) : Prop :=
  (s.latch.cause = 1 ∧ decode s.latch.word = none ∧ s.latch.addr = 0) ∨
  (s.latch.cause = 2 ∧ s.sp = 16 ∧ (∃ nnn, decode s.latch.word = some (.call nnn)) ∧ s.latch.addr = 0) ∨
  (s.latch.cause = 3 ∧ s.sp = 0 ∧ s.latch.word = 0x00EE ∧ s.latch.addr = 0) ∨
  (s.latch.cause = 4 ∧ s.cfg.oob = .fault ∧ 4096 ≤ s.latch.addr.toNat) ∨
  (s.latch.cause = 5 ∧ s.cfg.fontWrite = .fault ∧ s.latch.addr.toNat < 80) ∨
  (s.latch.cause = 6 ∧ s.cfg.keyIndex = .fault ∧ 16 ≤ s.latch.addr.toNat ∧ s.latch.addr.toNat < 256)

/-- The latch is clear while the core runs; when it is halted, PC is the recorded address (R222) and the record is
sound. -/
def LatchSound (s : State) : Prop :=
  if s.latch.halted then s.latch.pc = s.pc ∧ CauseSound s else s.latch = FaultLatch.clear

/-- The invariant of the block: it holds after reset, and every step and every transaction keeps it. -/
structure Inv (s : State) : Prop where
  canonical : MemCanonical s
  font : FontIntact s
  latch : LatchSound s

/-- The word a fetch at PC finds: both bytes are in memory, high byte first (R65, R68). -/
def FetchesWord (s : State) (w : Word) : Prop :=
  ∃ a b, memAddr s.cfg.oob s.pc.toNat = .ok a ∧ memAddr s.cfg.oob (s.pc.toNat + 1) = .ok b ∧
    w = s.byteAt a ++ s.byteAt b

/-- The end of a run that has not failed (R262): a running core whose PC points at a jump to itself. -/
def AtSelfJump (s : State) : Prop :=
  Running s ∧ ∃ nnn : Imm12, nnn.setWidth 16 = s.pc ∧ FetchesWord s ((0x1 : Nibble) ++ nnn)

/-- The pixel `p` lies under a 1-bit of the sprite `rows` drawn at (`x0`, `y0`): the set M of R182. -/
def UnderSprite (x0 y0 : Nat) (rows : List Byte) (p : Nat) : Prop :=
  ∃ r c, c < 8 ∧ (∃ row, rows[r]? = some row ∧ row.getLsbD (7 - c) = true) ∧
    p = (x0 + c) % 64 + 64 * ((y0 + r) % 32)

/-- The general registers that an instruction may write (R22). -/
def MayWriteReg (i : Instr) (s : State) (r : Reg) : Prop :=
  match i with
  | .ldByte x _ | .addByte x _ | .rnd x _ => r = x
  | .ldReg x _ | .orReg x _ | .andReg x _ | .xorReg x _ => r = x
  | .addReg x _ | .subReg x _ | .shr x _ | .subnReg x _ | .shl x _ => r = x ∨ r = VF
  | .ldVxDt x => r = x
  | .ldVxK x => r = x ∧ ∃ k, k < 16 ∧ s.keyAt k = true
  | .ldRegs x => r.toNat ≤ x.toNat
  | .drw _ _ _ => r = VF
  | .nop | .cls | .ret | .jp _ | .call _ | .seByte _ _ | .sneByte _ _ | .seReg _ _ | .sneReg _ _ | .ldI _ | .jpV0 _
  | .skp _ | .sknp _ | .ldDtVx _ | .ldStVx _ | .addI _ | .ldF _ | .ldB _ | .stRegs _ => False

/-- The instructions that R220 names in its "raised by" column; every other raises no fault of its own (R221). -/
def CanFault : Instr → Prop
  | .ret | .call _ | .drw _ _ _ | .skp _ | .sknp _ | .ldB _ | .stRegs _ | .ldRegs _ => True
  | .nop | .cls | .jp _ | .seByte _ _ | .sneByte _ _ | .seReg _ _ | .sneReg _ _ | .ldByte _ _ | .addByte _ _
  | .ldReg _ _ | .orReg _ _ | .andReg _ _ | .xorReg _ _ | .addReg _ _ | .subReg _ _ | .shr _ _ | .subnReg _ _
  | .shl _ _ | .ldI _ | .jpV0 _ | .rnd _ _ | .ldVxDt _ | .ldVxK _ | .ldDtVx _ | .ldStVx _ | .addI _ | .ldF _ => False

/-- The values that R28 lets an instruction leave in PC when it does not fault; `s` is the state after the fetch
advance. -/
def PcAfter (i : Instr) (s : State) (pc : Word) : Prop :=
  match i with
  | .seByte _ _ | .sneByte _ _ | .seReg _ _ | .sneReg _ _ | .skp _ | .sknp _ => pc = s.pc ∨ pc = s.pc + 2
  | .jp nnn | .call nnn => pc.toNat = nnn.toNat
  | .jpV0 nnn => pc.toNat = nnn.toNat + (s.reg 0).toNat
  | .ret => ∃ k, ∃ h : k < 16, s.sp.val = k + 1 ∧ pc = s.stack[k]
  | .ldVxK _ => (pc = s.pc ∧ ∃ k, k < 16 ∧ s.keyAt k = true) ∨ (pc = s.pc - 2 ∧ ∀ k, k < 16 → s.keyAt k = false)
  | .nop | .cls | .ldByte _ _ | .addByte _ _ | .ldReg _ _ | .orReg _ _ | .andReg _ _ | .xorReg _ _ | .addReg _ _
  | .subReg _ _ | .shr _ _ | .subnReg _ _ | .shl _ _ | .ldI _ | .rnd _ _ | .drw _ _ _ | .ldVxDt _ | .ldDtVx _
  | .ldStVx _ | .addI _ | .ldF _ | .ldB _ | .stRegs _ | .ldRegs _ => pc = s.pc

/-- Every general register, for an instruction whose claim says what each of them holds. -/
def allRegs : List Part := (List.range 16).map fun k => .v (BitVec.ofNat 4 k)

end Sys2Proof.Machine
end

