-- ==== Sys2Proof/Certificates/Slice0/Obligations.lean ====
section
/-!
DEFINITION. The statements for the provers. A meaning (`exec`) gets the state after the fetch advance, so "PC unchanged"
in a statement about `exec` means the instruction's address plus 2, and `s.pc - 2` is the instruction's own address.
A statement holds for every setting of the policies of R7 and for every font unless it names one.
-/

open Sys2Proof Sys2Proof.Machine

/-! ### Encoding and decoding -/

/-- Words written out from the encodings of R94, one or more of each format, with what they decode to; and the byte
order of R65. -/
def Obligations.WordsFromTheSpecDecodeToTheirInstructions : Prop :=
  decode 0x0000 = some .nop ∧ decode 0x00EE = some .ret ∧ decode 0x2300 = some (.call 0x300) ∧
  decode 0x3342 = some (.seByte 3 0x42) ∧ decode 0x8236 = some (.shr 2 3) ∧ decode 0x8CD5 = some (.subReg 0xC 0xD) ∧
  decode 0xBFFF = some (.jpV0 0xFFF) ∧ decode 0xDAB1 = some (.drw 0xA 0xB 1) ∧ decode 0xE5A1 = some (.sknp 5) ∧
  decode 0xF265 = some (.ldRegs 2) ∧ decode 0x0123 = none ∧ decode 0x8128 = none ∧
  decodeBytes [0x12, 0x34, 0x56] = .ok (.jp 0x234, [0x56])

/-- R94, R101: decoding the word of an instruction gives the instruction back, every operand at every value. -/
def Obligations.DecodeOfEncodeIsTheInstruction : Prop := ∀ i : Instr, decode (encode i) = some i

/-- R96, R101: an instruction has one word, so encoding what a word decodes to gives the word back: no bit is dropped. -/
def Obligations.EncodeOfDecodeIsTheWord : Prop := ∀ (w : Word) (i : Instr), decode w = some i → encode i = w

/-- R94, R95, R96: a word is the instruction of a row exactly when `(w & mask) = match`. (R94's 8XY_ nibbles and timer
directions are the spec's decisions D17 and D18, log entry 6.) -/
def Obligations.DecodeFollowsTheOpcodeTable : Prop :=
  ∀ (w : Word), ∀ r ∈ opcodeTable,
    (w &&& r.mask = r.bits ↔ ∃ i, decode w = some i ∧ i.mnemonic = r.mnemonic)

/-- R97: the words that are no instruction are exactly those of R97's table. -/
def Obligations.IllegalWordsAreExactlyTheListedOnes : Prop :=
  ∀ w : Word, decode w = none ↔ legalWord w = false

/-! ### The step -/

/-- R65 (with R95): a running core whose two bytes at PC and PC+1, high byte first, decode to `i` runs `i` on the state
with PC advanced by 2. -/
def Obligations.StepRunsTheFetchedInstruction : Prop :=
  ∀ (s : State) (w : Word) (i : Instr), Running s → FetchesWord s w → decode w = some i →
    step s = exec i { s with pc := s.pc + 2 }

/-- R224: a STEP of a halted core changes no state, whatever its random input. (The spec's decision D20.) -/
def Obligations.HaltedStepChangesNothing : Prop :=
  ∀ s : State, s.latch.halted = true → step s = .next s ∧ ∀ r, transact (.step r) s = .next (s, .ok)

/-- R97, R220, R222: a word that is no instruction is fault 1, recorded with its address and itself. (The spec's decisions
D7 and D11.) -/
def Obligations.IllegalWordHaltsTheCore : Prop :=
  ∀ (s : State) (w : Word), Running s → FetchesWord s w → decode w = none →
    ∃ t, step s = .next t ∧ FaultTaken 1 s.pc w 0 s t

/-- R68, R222, R227: under OOB_POLICY = Fault a fetch that is not wholly in memory is fault 4 with FAULT_WORD 0 and the
first address out of range; every other fetch finds a word. (The spec's decisions D2, D7, D11.) -/
def Obligations.FetchFaultsExactlyOutsideMemory : Prop :=
  (∀ s : State, Running s → s.cfg.oob = .fault → 4095 ≤ s.pc.toNat →
    ∃ t, step s = .next t ∧ FaultTaken 4 s.pc 0 (max s.pc.toNat 4096) s t) ∧
  (∀ s : State, s.cfg.oob = .wrap ∨ s.pc.toNat < 4095 → ∃ w, FetchesWord s w)

/-- R12, R222, R224: no step and no transaction stops the model: each answers a next state. -/
def Obligations.EveryStepAnswersANextState : Prop :=
  (∀ s : State, ∃ t, step s = .next t) ∧ ∀ (tr : Transaction) (s : State), ∃ t a, transact tr s = .next (t, a)

/-- R12, R222: faults are precise. A step that halts a running core leaves PC at the faulting instruction, records it
there, and changes nothing but the latch. (The spec's decision D7.) -/
def Obligations.FaultsArePrecise : Prop :=
  ∀ s t : State, Running s → step s = .next t → ¬ Running t →
    ∃ (cause : BitVec 3) (w : Word) (info : Nat), 1 ≤ cause.toNat ∧ cause.toNat ≤ 6 ∧ FaultTaken cause s.pc w info s t

/-! ### Reset and the invariant -/

/-- R46, R250, R251: what RESET leaves, element by element, from any state, halted or not; with the parameters at their
defaults it is the power-on state. (The fault latch's values are the spec's decision D23.) -/
def Obligations.ResetLeavesTheListedValues : Prop :=
  ∀ s : State, ∃ t, transact .reset s = .next (t, .ok) ∧
    (∀ a, (h : a < 80) → t.byteAt a = s.cfg.fontRom[a]) ∧ (∀ a, 80 ≤ a → a < 4096 → t.byteAt a = 0) ∧
    t.pc = 0x200 ∧ (∀ r, t.reg r = 0) ∧ t.index = 0 ∧ (∀ k, (h : k < 16) → t.stack[k] = 0) ∧ t.sp = 0 ∧
    t.dt = 0 ∧ t.st = 0 ∧ (∀ k, k < 16 → t.keyAt k = false) ∧ (∀ p, p < 2048 → pixel t.fb p = false) ∧
    t.latch.halted = false ∧ t.latch.cause = 0 ∧ t.latch.pc = 0 ∧ t.latch.word = 0 ∧ t.latch.addr = 0 ∧
    (s.cfg = Config.default → t = State.reset)

/-- The invariant holds after reset, whatever the parameters. -/
def Obligations.ResetMeetsTheInvariant : Prop := Inv State.reset ∧ ∀ cfg : Config, Inv (State.resetWith cfg)

/-- Every step keeps the invariant: memory stays canonical, the font region stays FONT_ROM under the default write policy
(R64), and the latch is clear while the core runs and, when it is halted, agrees with the state it recorded (R222). -/
def Obligations.StepKeepsTheInvariant : Prop := ∀ s t : State, Inv s → step s = .next t → Inv t

/-- Every host transaction keeps the invariant, STEP among them. -/
def Obligations.TransactionsKeepTheInvariant : Prop :=
  ∀ (tr : Transaction) (s t : State) (a : Answer), Inv s → transact tr s = .next (t, a) → Inv t

/-- R64: under FONT_WRITE_POLICY = Fault no step changes a byte of the font region. (The spec's decision D3.) -/
def Obligations.StepsLeaveTheFontRegionUnderTheFaultPolicy : Prop :=
  ∀ s t : State, s.cfg.fontWrite = .fault → step s = .next t → ∀ a, a < 80 → t.byteAt a = s.byteAt a

/-! ### Who writes what, over all instructions -/

/-- R22: an instruction writes no general register but those R22 lists for it. -/
def Obligations.OnlyTheListedRegistersAreWritten : Prop :=
  ∀ (i : Instr) (s t : State) (r : Reg), exec i s = .next t → ¬ MayWriteReg i s r → t.reg r = s.reg r

/-- R30, R31: I is written only by ANNN, FX1E and FX29, and STACK and SP only by 2NNN and 00EE. (That FX33, FX55 and FX65
leave I is the spec's decision D10.) -/
def Obligations.IndexAndStackHaveTheirOwnWriters : Prop :=
  ∀ (i : Instr) (s t : State), exec i s = .next t →
    (((∀ nnn, i ≠ .ldI nnn) ∧ (∀ x, i ≠ .addI x) ∧ ∀ x, i ≠ .ldF x) → t.index = s.index) ∧
    (((∀ nnn, i ≠ .call nnn) ∧ i ≠ .ret) → t.stack = s.stack ∧ t.sp = s.sp)

/-- R33, R35: DT is written only by FX15, ST only by FX18, and no step writes the keys; outside STEP only TICK and RESET
change a timer and only KEY and RESET a key. -/
def Obligations.TimersAndKeysHaveTheirOwnWriters : Prop :=
  (∀ (i : Instr) (s t : State), exec i s = .next t →
    ((∀ x, i ≠ .ldDtVx x) → t.dt = s.dt) ∧ ((∀ x, i ≠ .ldStVx x) → t.st = s.st)) ∧
  (∀ (tr : Transaction) (s t : State) (a : Answer), transact tr s = .next (t, a) →
    (((∀ k b, tr ≠ .key k b) ∧ tr ≠ .reset) → t.keys = s.keys) ∧
    (((∀ r, tr ≠ .step r) ∧ tr ≠ .tick ∧ tr ≠ .reset) → t.dt = s.dt ∧ t.st = s.st))

/-- R37, R61: an instruction changes the framebuffer only if it is 00E0 or DXYN, and a byte of memory only if it is FX33
or FX55. -/
def Obligations.FramebufferAndMemoryHaveTheirOwnWriters : Prop :=
  ∀ (i : Instr) (s t : State), exec i s = .next t →
    ((i ≠ .cls ∧ ∀ x y n, i ≠ .drw x y n) → t.fb = s.fb) ∧
    (((∀ x, i ≠ .ldB x) ∧ ∀ x, i ≠ .stRegs x) → ∀ a, t.byteAt a = s.byteAt a)

/-- R28: PC changes as R28 lists, and in no other way: a step that does not fault fetches a word and leaves PC as R28 says
of its instruction, from PC + 2; a step that faults or is halted leaves PC (the spec's decisions D7 and D20); RESET sets
it to 0x200; no other transaction changes it. -/
def Obligations.ProgramCounterChangesOnlyAsListed : Prop :=
  (∀ s t : State, Running s → step s = .next t → Running t →
    ∃ w i, FetchesWord s w ∧ decode w = some i ∧ PcAfter i { s with pc := s.pc + 2 } t.pc) ∧
  (∀ s t : State, step s = .next t → ¬ Running t → t.pc = s.pc) ∧
  (∀ (tr : Transaction) (s t : State) (a : Answer), transact tr s = .next (t, a) →
    (tr = .reset → t.pc = 0x200) ∧ (((∀ r, tr ≠ .step r) ∧ tr ≠ .reset) → t.pc = s.pc))

/-- R221: an instruction that R220 does not name raises no fault: it leaves the fault latch as it was. -/
def Obligations.OtherInstructionsNeverFault : Prop :=
  ∀ (i : Instr) (s : State), ¬ CanFault i → ∃ t, exec i s = .next t ∧ t.latch = s.latch

/-! ### Control flow -/

/-- R111: NOP does nothing; its step leaves PC + 2 and nothing else changed. -/
def Obligations.NopChangesNothing : Prop :=
  (∀ s : State, exec .nop s = .next s) ∧
  (∀ s : State, Running s → FetchesWord s 0x0000 → ∃ t, step s = .next t ∧ t.pc = s.pc + 2 ∧ ChangesOnly [.pc] s t)

/-- R112: RET with SP > 0 decrements SP and jumps to the entry there, which stays in the stack. (The order and the kept
entry are the spec's decision D5.) -/
def Obligations.ReturnPopsIntoTheProgramCounter : Prop :=
  ∀ (s : State) (k : Nat) (h : k < 16), s.sp.val = k + 1 →
    ∃ t, exec .ret s = .next t ∧ t.sp.val = k ∧ t.pc = s.stack[k] ∧ t.stack = s.stack ∧ ChangesOnly [.pc, .stack] s t

/-- R114: CALL with SP < 16 stores PC, the address of the CALL plus 2, at STACK[SP], increments SP and jumps to NNN. (The
order is the spec's decision D5.) -/
def Obligations.CallPushesAndJumps : Prop :=
  ∀ (s : State) (nnn : Imm12), s.sp.val < 16 →
    ∃ t, exec (.call nnn) s = .next t ∧ t.sp.val = s.sp.val + 1 ∧ t.pc.toNat = nnn.toNat ∧
      (∀ k, (h : k < 16) → t.stack[k] = if k = s.sp.val then s.pc else s.stack[k]) ∧ ChangesOnly [.pc, .stack] s t

/-- R112, R114, R220, R222: CALL with SP = 16 is fault 2 and RET with SP = 0 is fault 3. (The spec's decisions D6, D7,
D11.) -/
def Obligations.StackFaults : Prop :=
  (∀ (s : State) (nnn : Imm12), s.sp = 16 →
    ∃ t, exec (.call nnn) s = .next t ∧ FaultTaken 2 (s.pc - 2) (encode (.call nnn)) 0 s t) ∧
  (∀ s : State, s.sp = 0 → ∃ t, exec .ret s = .next t ∧ FaultTaken 3 (s.pc - 2) 0x00EE 0 s t)

/-- R114 with R112: a RET after a CALL, from wherever the subroutine has got to, continues after the CALL with the stack
pointer it had. -/
def Obligations.ReturnAfterCallContinuesAfterIt : Prop :=
  ∀ (s : State) (nnn : Imm12), s.sp.val < 16 →
    ∃ t, exec (.call nnn) s = .next t ∧
      ∀ p : Word, ∃ u, exec .ret { t with pc := p } = .next u ∧ u.pc = s.pc ∧ u.sp = s.sp

/-- R113, R119, R160: JP sets PC to NNN, JP V0 to NNN plus V0 (which is below 2^16), and LD I sets I to NNN. -/
def Obligations.AddressImmediatesAreLoaded : Prop :=
  ∀ (nnn : Imm12) (s : State),
    (∃ t, exec (.jp nnn) s = .next t ∧ t.pc.toNat = nnn.toNat ∧ ChangesOnly [.pc] s t) ∧
    (∃ t, exec (.jpV0 nnn) s = .next t ∧ t.pc.toNat = nnn.toNat + (s.reg 0).toNat ∧ ChangesOnly [.pc] s t) ∧
    (∃ t, exec (.ldI nnn) s = .next t ∧ t.index.toNat = nnn.toNat ∧ ChangesOnly [.index] s t)

/-- R115, R116: SE skips the next word exactly when V[X] equals NN, SNE exactly when it does not. -/
def Obligations.ByteSkipsCompareWithTheImmediate : Prop :=
  ∀ (x : Reg) (nn : Byte) (s : State),
    (∃ t, exec (.seByte x nn) s = .next t ∧ t.pc = (if s.reg x = nn then s.pc + 2 else s.pc) ∧ ChangesOnly [.pc] s t) ∧
    (∃ t, exec (.sneByte x nn) s = .next t ∧ t.pc = (if s.reg x = nn then s.pc else s.pc + 2) ∧ ChangesOnly [.pc] s t)

/-- R117, R118: SE skips the next word exactly when V[X] equals V[Y], SNE exactly when it does not. -/
def Obligations.RegisterSkipsCompareTwoRegisters : Prop :=
  ∀ (x y : Reg) (s : State),
    (∃ t, exec (.seReg x y) s = .next t ∧ t.pc = (if s.reg x = s.reg y then s.pc + 2 else s.pc) ∧
      ChangesOnly [.pc] s t) ∧
    (∃ t, exec (.sneReg x y) s = .next t ∧ t.pc = (if s.reg x = s.reg y then s.pc else s.pc + 2) ∧
      ChangesOnly [.pc] s t)

/-! ### Registers and ALU -/

/-- R132, R133, R134: LD loads NN or V[Y] into V[X]; ADD adds NN modulo 256 and writes no flag. -/
def Obligations.LoadsAndImmediateAddWriteOneRegister : Prop :=
  ∀ (x y : Reg) (nn : Byte) (s : State),
    (∃ t, exec (.ldByte x nn) s = .next t ∧ t.reg x = nn ∧ ChangesOnly [.v x] s t) ∧
    (∃ t, exec (.addByte x nn) s = .next t ∧ (t.reg x).toNat = ((s.reg x).toNat + nn.toNat) % 256 ∧
      ChangesOnly [.v x] s t) ∧
    (∃ t, exec (.ldReg x y) s = .next t ∧ t.reg x = s.reg y ∧ ChangesOnly [.v x] s t)

/-- R135, R136, R137: OR, AND and XOR combine V[X] and V[Y] bit by bit into V[X] and leave VF unless X = 15. (That they
write no flag is the spec's decision D9.) -/
def Obligations.LogicWritesOneRegisterBitByBit : Prop :=
  ∀ (x y : Reg) (s : State),
    (∃ t, exec (.orReg x y) s = .next t ∧
      (∀ k, k < 8 → (t.reg x).getLsbD k = ((s.reg x).getLsbD k || (s.reg y).getLsbD k)) ∧ ChangesOnly [.v x] s t) ∧
    (∃ t, exec (.andReg x y) s = .next t ∧
      (∀ k, k < 8 → (t.reg x).getLsbD k = ((s.reg x).getLsbD k && (s.reg y).getLsbD k)) ∧ ChangesOnly [.v x] s t) ∧
    (∃ t, exec (.xorReg x y) s = .next t ∧
      (∀ k, k < 8 → (t.reg x).getLsbD k = ((s.reg x).getLsbD k ^^ (s.reg y).getLsbD k)) ∧ ChangesOnly [.v x] s t)

/-- R138: ADD writes the sum modulo 256 into V[X] and then the carry into VF, so with X = 15 VF holds the carry.
(That VF is written last is the spec's decision D8, log entry 12.) -/
def Obligations.AddWritesTheSumAndThenTheCarry : Prop :=
  ∀ (x y : Reg) (s : State), ∃ t, exec (.addReg x y) s = .next t ∧
    (x ≠ VF → (t.reg x).toNat = ((s.reg x).toNat + (s.reg y).toNat) % 256) ∧
    t.reg VF = (if 256 ≤ (s.reg x).toNat + (s.reg y).toNat then 1 else 0) ∧ ChangesOnly [.v x, .v VF] s t

/-- R139, R141: SUB writes V[X] - V[Y] and SUBN V[Y] - V[X], modulo 256, into V[X], and then 1 into VF when there is no
borrow, else 0, so with X = 15 VF holds that flag. (That VF is written last is the spec's decision D8, log entry 12.) -/
def Obligations.SubtractionsWriteTheDifferenceAndThenNoBorrow : Prop :=
  ∀ (x y : Reg) (s : State),
    (∃ t, exec (.subReg x y) s = .next t ∧
      (x ≠ VF → (t.reg x).toNat = (256 + (s.reg x).toNat - (s.reg y).toNat) % 256) ∧
      t.reg VF = (if (s.reg y).toNat ≤ (s.reg x).toNat then 1 else 0) ∧ ChangesOnly [.v x, .v VF] s t) ∧
    (∃ t, exec (.subnReg x y) s = .next t ∧
      (x ≠ VF → (t.reg x).toNat = (256 + (s.reg y).toNat - (s.reg x).toNat) % 256) ∧
      t.reg VF = (if (s.reg x).toNat ≤ (s.reg y).toNat then 1 else 0) ∧ ChangesOnly [.v x, .v VF] s t)

/-- R140, R142: SHR and SHL shift V[X] by one bit, whatever Y names, and then write the bit shifted out into VF, so
with X = 15 VF holds that bit. (That VF is written last is the spec's decision D8, log entry 12.) -/
def Obligations.ShiftsWriteTheResultAndThenTheBitShiftedOut : Prop :=
  ∀ (x y : Reg) (s : State),
    (∃ t, exec (.shr x y) s = .next t ∧ (x ≠ VF → (t.reg x).toNat = (s.reg x).toNat / 2) ∧
      (t.reg VF).toNat = (s.reg x).toNat % 2 ∧ ChangesOnly [.v x, .v VF] s t) ∧
    (∃ t, exec (.shl x y) s = .next t ∧ (x ≠ VF → (t.reg x).toNat = (s.reg x).toNat * 2 % 256) ∧
      (t.reg VF).toNat = (s.reg x).toNat / 128 ∧ ChangesOnly [.v x, .v VF] s t)

/-- R143: RND writes the drawn byte ANDed with NN into V[X], whatever byte was drawn. (The free draw is the spec's decision
D16, log entry 3.) -/
def Obligations.RandomWritesTheMaskedDraw : Prop :=
  ∀ (x : Reg) (nn : Byte) (s : State), ∃ t, exec (.rnd x nn) s = .next t ∧ t.reg x = s.rnd &&& nn ∧
    ChangesOnly [.v x, .draws] s t

/-- R42, R143: a STEP at a CXNN word gives V[X] the STEP's own input ANDed with NN, for every value of the input, and
leaves no other trace of it. (The spec's decision D16, log entry 3.) -/
def Obligations.StepInputIsTheDrawOfItsRandomInstruction : Prop :=
  ∀ (s : State) (w : Word) (x : Reg) (nn r : Byte), Running s → FetchesWord s w → decode w = some (.rnd x nn) →
    ∃ t, transact (.step r) s = .next (t, .ok) ∧ t.reg x = r &&& nn ∧ t.pc = s.pc + 2 ∧ ChangesOnly [.v x, .pc] s t

/-- R42: a STEP reads its random input only when its instruction is CXNN: every other STEP does the same whatever the
input. -/
def Obligations.OnlyRandomReadsTheStepInput : Prop :=
  ∀ (s : State) (r r' : Byte), (∀ w x nn, FetchesWord s w → decode w ≠ some (.rnd x nn)) →
    transact (.step r) s = transact (.step r') s

/-! ### The index register and memory -/

/-- R161, R162: ADD I adds V[X] to I modulo 2^16 with no flag, and LD F points I at the glyph of V[X]'s low nibble. (The
spec's decisions D9 and D14.) -/
def Obligations.IndexArithmetic : Prop :=
  ∀ (x : Reg) (s : State),
    (∃ t, exec (.addI x) s = .next t ∧ t.index.toNat = (s.index.toNat + (s.reg x).toNat) % 65536 ∧
      ChangesOnly [.index] s t) ∧
    (∃ t, exec (.ldF x) s = .next t ∧ t.index.toNat = (s.reg x).toNat % 16 * 5 ∧ ChangesOnly [.index] s t)

/-- R163: where all three addresses can be stored to, LD B stores the decimal digits of V[X] at I, I+1 and I+2 and changes
no other byte. (That I is unchanged is the spec's decision D10.) -/
def Obligations.DecimalStoreWritesThreeDigits : Prop :=
  ∀ (x : Reg) (s : State) (a : Nat → Nat), (∀ k, k < 3 → storeAddr s.cfg (s.index.toNat + k) = .ok (a k)) →
    ∃ t, exec (.ldB x) s = .next t ∧ (t.byteAt (a 0)).toNat = (s.reg x).toNat / 100 ∧
      (t.byteAt (a 1)).toNat = (s.reg x).toNat / 10 % 10 ∧ (t.byteAt (a 2)).toNat = (s.reg x).toNat % 10 ∧
      (∀ c, (∀ k, k < 3 → c ≠ a k) → t.byteAt c = s.byteAt c) ∧ ChangesOnly [.mem] s t

/-- R164: where all X + 1 addresses can be stored to, LD [I] stores V0 to VX at I, I+1, … and changes no other byte. (That
I is unchanged is the spec's decision D10.) -/
def Obligations.BlockStoreWritesTheRegisters : Prop :=
  ∀ (x : Reg) (s : State) (a : Nat → Nat),
    (∀ k, k ≤ x.toNat → storeAddr s.cfg (s.index.toNat + k) = .ok (a k)) →
    ∃ t, exec (.stRegs x) s = .next t ∧ (∀ r : Reg, r.toNat ≤ x.toNat → t.byteAt (a r.toNat) = s.reg r) ∧
      (∀ c, (∀ k, k ≤ x.toNat → c ≠ a k) → t.byteAt c = s.byteAt c) ∧ ChangesOnly [.mem] s t

/-- R64, R68, R163, R164, R227: a store instruction whose first failing address is I + k takes the fault of that address,
MemoryBounds of it or FontWrite of the byte it maps to, and stores nothing. (The spec's decisions D2, D3, D7, D11.) -/
def Obligations.StoresFaultAtTheirFirstFailingAddress : Prop :=
  ∀ (i : Instr) (n : Nat), (∃ x, i = .ldB x ∧ n = 3) ∨ (∃ x, i = .stRegs x ∧ n = x.toNat + 1) →
    ∀ (s : State) (k : Nat), k < n → (∀ j, j < k → ∃ c, storeAddr s.cfg (s.index.toNat + j) = .ok c) →
      (s.cfg.oob = .fault → 4096 ≤ s.index.toNat + k →
        ∃ t, exec i s = .next t ∧ FaultTaken 4 (s.pc - 2) (encode i) (s.index.toNat + k) s t) ∧
      (∀ b, s.cfg.fontWrite = .fault → memAddr s.cfg.oob (s.index.toNat + k) = .ok b → b < 80 →
        ∃ t, exec i s = .next t ∧ FaultTaken 5 (s.pc - 2) (encode i) b s t)

/-- R165: where all X + 1 addresses are in memory, LD Vx, [I] loads V0 to VX from I, I+1, … and leaves every other
register. (That I is unchanged is the spec's decision D10.) -/
def Obligations.BlockLoadReadsTheRegisters : Prop :=
  ∀ (x : Reg) (s : State) (a : Nat → Nat),
    (∀ k, k ≤ x.toNat → memAddr s.cfg.oob (s.index.toNat + k) = .ok (a k)) →
    ∃ t, exec (.ldRegs x) s = .next t ∧
      (∀ r : Reg, t.reg r = if r.toNat ≤ x.toNat then s.byteAt (a r.toNat) else s.reg r) ∧ ChangesOnly allRegs s t

/-- R68, R165, R181, R227: under OOB_POLICY = Fault a block load or a draw whose addresses run past memory is fault 4 with
the first address of 4096 or more, and changes no register and no pixel. (The spec's decisions D2, D7, D11.) -/
def Obligations.ReadsFaultAtTheirFirstAddressOutsideMemory : Prop :=
  ∀ (i : Instr) (n : Nat), (∃ x, i = .ldRegs x ∧ n = x.toNat + 1) ∨ (∃ x y m, i = .drw x y m ∧ n = m.toNat) →
    ∀ s : State, s.cfg.oob = .fault → 0 < n → 4096 < s.index.toNat + n →
      ∃ t, exec i s = .next t ∧ FaultTaken 4 (s.pc - 2) (encode i) (max s.index.toNat 4096) s t

/-- R74: code that FX55 stores is what a fetch at its address finds next, with nothing in between. -/
def Obligations.StoredCodeIsTheNextFetched : Prop :=
  ∀ (x : Reg) (s t : State), Running s → exec (.stRegs x) s = .next t → Running t → 1 ≤ x.toNat →
    FetchesWord { t with pc := s.index } (s.reg 0 ++ s.reg 1)

/-! ### The display -/

/-- R180: CLS makes every pixel false and changes nothing else. -/
def Obligations.ClearMakesEveryPixelFalse : Prop :=
  ∀ s : State, ∃ t, exec .cls s = .next t ∧ (∀ p, p < 2048 → pixel t.fb p = false) ∧ ChangesOnly [.fb] s t

/-- R181, R182: where all N row addresses are in memory, DRW inverts exactly the pixels under the sprite's 1-bits and sets
VF to 1 if one of them was set, else to 0. (Bit 7 as the leftmost column is the spec's decision D12, log entry 6.) -/
def Obligations.DrawInvertsThePixelsUnderTheSprite : Prop :=
  ∀ (x y : Reg) (n : Nibble) (s : State) (a : Nat → Nat),
    (∀ r, r < n.toNat → memAddr s.cfg.oob (s.index.toNat + r) = .ok (a r)) →
    ∃ t, exec (.drw x y n) s = .next t ∧
      (∀ p, p < 2048 →
        (UnderSprite (s.reg x).toNat (s.reg y).toNat ((List.range n.toNat).map fun r => s.byteAt (a r)) p →
          pixel t.fb p = !pixel s.fb p) ∧
        (¬ UnderSprite (s.reg x).toNat (s.reg y).toNat ((List.range n.toNat).map fun r => s.byteAt (a r)) p →
          pixel t.fb p = pixel s.fb p)) ∧
      ((∃ p, UnderSprite (s.reg x).toNat (s.reg y).toNat ((List.range n.toNat).map fun r => s.byteAt (a r)) p ∧
        pixel s.fb p = true) → t.reg VF = 1) ∧
      ((∀ p, UnderSprite (s.reg x).toNat (s.reg y).toNat ((List.range n.toNat).map fun r => s.byteAt (a r)) p →
        pixel s.fb p = false) → t.reg VF = 0) ∧
      ChangesOnly [.fb, .v VF] s t

/-- R181, R182 (and the part of R183 that agrees with them, log entry 8): drawing the same sprite at the same position
again, on the framebuffer the first draw left, restores every pixel; its VF is 1 if some pixel under the sprite was clear
before the first draw, so that the first draw set it, and 0 if all of them were set. -/
def Obligations.DrawingTwiceRestoresTheFramebuffer : Prop :=
  ∀ (x y : Reg) (n : Nibble) (s t u : State) (a : Nat → Nat),
    (∀ r, r < n.toNat → memAddr s.cfg.oob (s.index.toNat + r) = .ok (a r)) → exec (.drw x y n) s = .next t →
    u.cfg = s.cfg → u.index = s.index → (∀ c, u.byteAt c = s.byteAt c) → u.reg x = s.reg x → u.reg y = s.reg y →
    u.fb = t.fb →
    ∃ z, exec (.drw x y n) u = .next z ∧ z.fb = s.fb ∧
      ((∃ p, UnderSprite (s.reg x).toNat (s.reg y).toNat ((List.range n.toNat).map fun r => s.byteAt (a r)) p ∧
        pixel s.fb p = false) → z.reg VF = 1) ∧
      ((∀ p, UnderSprite (s.reg x).toNat (s.reg y).toNat ((List.range n.toNat).map fun r => s.byteAt (a r)) p →
        pixel s.fb p = true) → z.reg VF = 0)

/-! ### Keys and timers -/

/-- R199, R200, R201: with V[X] below 16, or its low nibble under KEY_INDEX_POLICY = LowNibble, SKP skips the next word
exactly when that key is pressed, SKNP exactly when it is not. (The spec's decision D4.) -/
def Obligations.KeySkipsTestTheKeyOfTheRegister : Prop :=
  ∀ (x : Reg) (s : State), (s.reg x).toNat < 16 ∨ s.cfg.keyIndex = .lowNibble →
    (∃ t, exec (.skp x) s = .next t ∧
      t.pc = (if s.keyAt ((s.reg x).toNat % 16) then s.pc + 2 else s.pc) ∧ ChangesOnly [.pc] s t) ∧
    (∃ t, exec (.sknp x) s = .next t ∧
      t.pc = (if s.keyAt ((s.reg x).toNat % 16) then s.pc else s.pc + 2) ∧ ChangesOnly [.pc] s t)

/-- R199, R220: with V[X] of 16 or more under KEY_INDEX_POLICY = Fault, SKP and SKNP are fault 6 with the value. (The spec's
decisions D4, D7, D11.) -/
def Obligations.KeySkipsFaultOnNoKey : Prop :=
  ∀ (x : Reg) (s : State), 16 ≤ (s.reg x).toNat → s.cfg.keyIndex = .fault →
    (∃ t, exec (.skp x) s = .next t ∧ FaultTaken 6 (s.pc - 2) (encode (.skp x)) (s.reg x).toNat s t) ∧
    (∃ t, exec (.sknp x) s = .next t ∧ FaultTaken 6 (s.pc - 2) (encode (.sknp x)) (s.reg x).toNat s t)

/-- R202: LD Vx, K loads the lowest-numbered pressed key; with no key pressed it rewinds PC by 2, so that its step leaves
the whole state as it was and runs it again. -/
def Obligations.WaitForKeyLoadsTheLowestPressedKey : Prop :=
  (∀ (x : Reg) (s : State) (k : Nat), k < 16 → s.keyAt k = true → (∀ j, j < k → s.keyAt j = false) →
    ∃ t, exec (.ldVxK x) s = .next t ∧ (t.reg x).toNat = k ∧ ChangesOnly [.v x] s t) ∧
  (∀ (x : Reg) (s : State), (∀ k, k < 16 → s.keyAt k = false) →
    ∃ t, exec (.ldVxK x) s = .next t ∧ t.pc = s.pc - 2 ∧ ChangesOnly [.pc] s t) ∧
  (∀ (x : Reg) (s : State) (w : Word), Running s → FetchesWord s w → decode w = some (.ldVxK x) →
    (∀ k, k < 16 → s.keyAt k = false) → step s = .next s)

/-- R203, R204, R205: FX07 copies DT into V[X], FX15 V[X] into DT, FX18 V[X] into ST. (The directions are the spec's
decision D18, log entry 6.) -/
def Obligations.TimerMoves : Prop :=
  ∀ (x : Reg) (s : State),
    (∃ t, exec (.ldVxDt x) s = .next t ∧ t.reg x = s.dt ∧ ChangesOnly [.v x] s t) ∧
    (∃ t, exec (.ldDtVx x) s = .next t ∧ t.dt = s.reg x ∧ ChangesOnly [.dt] s t) ∧
    (∃ t, exec (.ldStVx x) s = .next t ∧ t.st = s.reg x ∧ ChangesOnly [.st] s t)

/-! ### The host's transactions -/

/-- R34: TICK takes one from each timer, floored at 0, and changes nothing else, halted or not. (Halted: the spec's
decision D20.) -/
def Obligations.TickDecrementsBothTimers : Prop :=
  ∀ s : State, ∃ t, transact .tick s = .next (t, .ok) ∧ t.dt.toNat = s.dt.toNat - 1 ∧ t.st.toNat = s.st.toNat - 1 ∧
    ChangesOnly [.dt, .st] s t

/-- R36: KEY sets one key, halted or not; an index of 16 or more is rejected with no change. (The spec's decisions D20 and
D22.) -/
def Obligations.KeySetsOneKeyOrIsRejected : Prop :=
  ∀ (index : Byte) (pressed : Bool) (s : State),
    (index.toNat < 16 → ∃ t, transact (.key index pressed) s = .next (t, .ok) ∧
      (∀ k, k < 16 → t.keyAt k = if k = index.toNat then pressed else s.keyAt k) ∧ ChangesOnly [.keys] s t) ∧
    (16 ≤ index.toNat → transact (.key index pressed) s = .next (s, .keyRange))

/-- R70, R71: LOAD of at most 3584 bytes writes exactly them from 0x200 on and changes nothing else, halted or not; a
longer one is rejected with no change. (The spec's decisions D20 and D21.) -/
def Obligations.LoadWritesItsBytesOrIsRejected : Prop :=
  ∀ (bytes : List Byte) (s : State),
    (bytes.length ≤ 3584 → ∃ t, transact (.load bytes) s = .next (t, .ok) ∧
      (∀ k, (h : k < bytes.length) → t.byteAt (0x200 + k) = bytes[k]) ∧
      (∀ a, a < 0x200 ∨ 0x200 + bytes.length ≤ a → t.byteAt a = s.byteAt a) ∧ ChangesOnly [.mem] s t) ∧
    (3584 < bytes.length → transact (.load bytes) s = .next (s, .loadCapacity))

/-- R39, R43: READ_DISPLAY returns the 2048 pixels in index order, READ_STATUS the fault latch and ST, and neither changes
any state. (The latch is the spec's decision D7, its reading of ST D25.) -/
def Obligations.ReadsReturnTheDisplayAndTheStatus : Prop :=
  ∀ s : State, transact .readStatus s = .next (s, .status s.latch s.st) ∧
    ∃ px, transact .readDisplay s = .next (s, .display px) ∧ px.length = 2048 ∧
      ∀ x y, x < 64 → (h : y < 32) → px[x + 64 * y]? = some (s.fb[y].getLsbD x)

/-! ### The end of a run -/

/-- R262: at a jump to itself every STEP leaves the whole state unchanged. (This end of a run is the spec's decision
D13.) -/
def Obligations.SelfJumpLeavesTheStateUnchanged : Prop := ∀ s : State, AtSelfJump s → step s = .next s

/-- R256: with nothing loaded after reset, k steps for any k up to 1792 leave PC at 0x200 + 2k and nothing else changed,
and the step after the 1792nd is fault 4 at 0x1000. (About the reset state alone, with its default OOB_POLICY. The fault is
the spec's decision D2, its precise record D7 and its code D11, log entries 4, 5 and 14.) -/
def Obligations.EmptyMemoryRunsToItsEndAndFaults : Prop :=
  (∀ k, k ≤ 1792 → ∃ t, core.run k core.reset = .next t ∧ t.pc.toNat = 0x200 + 2 * k ∧ ChangesOnly [.pc] State.reset t) ∧
  ∃ t u, core.run 1792 core.reset = .next t ∧ step t = .next u ∧ FaultTaken 4 0x1000 0 0x1000 t u
end

