-- ==== Sys2Proof/Laws/Memory.lean ====
section
/-!
SUPPORT. Memory as data: read after write, and that every write keeps the canonical form.
-/

namespace Sys2Proof.Machine

theorem Memory.find_insert_self (m : Memory) (a : Nat) (v : Byte) : (m.insert a v).find a = some v := by
  induction m with
  | nil => simp [Memory.insert, Memory.find]
  | cons c m ih =>
    obtain ⟨b, w⟩ := c
    simp only [Memory.insert]
    split
    · simp [Memory.find]
    · split
      · simp [Memory.find]
      · rename_i h; simp [Memory.find, h, ih]

theorem Memory.find_insert_ne (m : Memory) {a c : Nat} (v : Byte) (h : c ≠ a) : (m.insert a v).find c = m.find c := by
  induction m with
  | nil => simp [Memory.insert, Memory.find, h]
  | cons d m ih =>
    obtain ⟨b, w⟩ := d
    simp only [Memory.insert]
    split
    · simp [Memory.find, h]
    · split
      · rename_i hab; subst hab; simp [Memory.find, h]
      · simp [Memory.find, ih]

theorem Memory.find_erase_self (m : Memory) (a : Nat) : (m.erase a).find a = none := by
  induction m with
  | nil => simp [Memory.erase, Memory.find]
  | cons d m ih =>
    obtain ⟨b, w⟩ := d
    simp only [Memory.erase]
    split
    · exact ih
    · rename_i h; simp [Memory.find, h, ih]

theorem Memory.find_erase_ne (m : Memory) {a c : Nat} (h : c ≠ a) : (m.erase a).find c = m.find c := by
  induction m with
  | nil => simp [Memory.erase, Memory.find]
  | cons d m ih =>
    obtain ⟨b, w⟩ := d
    simp only [Memory.erase]
    split
    · rename_i hab; subst hab; simp [Memory.find, h, ih]
    · simp [Memory.find, ih]

/-- A read after a write: the written byte at its address, and every other byte as before. -/
theorem Memory.read_write (rom : Vector Byte 80) (m : Memory) (a c : Nat) (v : Byte) :
    (m.write rom a v).read rom c = if c = a then v else m.read rom c := by
  unfold Memory.write
  split
  · rename_i hv
    split
    · rename_i h; subst h; simp [Memory.read, Memory.find_erase_self, hv]
    · rename_i h; simp [Memory.read, Memory.find_erase_ne m h]
  · split
    · rename_i h; subst h; simp [Memory.read, Memory.find_insert_self]
    · rename_i h; simp [Memory.read, Memory.find_insert_ne m v h]

/-- A block write: byte `k` of the block at `a + k`, and every other byte as before. -/
theorem Memory.read_writeAll (rom : Vector Byte 80) (bs : List Byte) (m : Memory) (a c : Nat) :
    (m.writeAll rom a bs).read rom c = if a ≤ c then (bs[c - a]?).getD (m.read rom c) else m.read rom c := by
  induction bs generalizing m a with
  | nil => simp [Memory.writeAll]
  | cons b bs ih =>
    rw [Memory.writeAll, ih, Memory.read_write]
    rcases Nat.lt_trichotomy a c with h | h | h
    · have e : c - a = (c - (a + 1)) + 1 := by omega
      simp [show a + 1 ≤ c from h, show a ≤ c by omega, show ¬ c = a by omega, e]
    · subst h; simp
    · simp [show ¬ a + 1 ≤ c by omega, show ¬ a ≤ c by omega, show ¬ c = a by omega]

theorem Memory.wfFrom_mono (rom : Vector Byte 80) (m : Memory) {lo hi : Nat} (h : lo ≤ hi)
    (w : m.wfFrom rom hi = true) : m.wfFrom rom lo = true := by
  cases m with
  | nil => rfl
  | cons c m =>
    simp only [Memory.wfFrom, Bool.and_eq_true, decide_eq_true_eq] at w ⊢
    exact ⟨⟨⟨by omega, w.1.1.2⟩, w.1.2⟩, w.2⟩

theorem Memory.wfFrom_erase (rom : Vector Byte 80) (m : Memory) (lo a : Nat) (w : m.wfFrom rom lo = true) :
    (m.erase a).wfFrom rom lo = true := by
  induction m generalizing lo with
  | nil => rfl
  | cons c m ih =>
    obtain ⟨b, v⟩ := c
    simp only [Memory.wfFrom, Bool.and_eq_true, decide_eq_true_eq] at w
    simp only [Memory.erase]
    split
    · exact Memory.wfFrom_mono rom _ (by omega) (ih (b + 1) w.2)
    · simp only [Memory.wfFrom, Bool.and_eq_true, decide_eq_true_eq]
      exact ⟨w.1, ih (b + 1) w.2⟩

theorem Memory.wfFrom_insert (rom : Vector Byte 80) (m : Memory) (lo a : Nat) (v : Byte) (hlo : lo ≤ a) (ha : a < 4096)
    (hv : v ≠ Memory.unlisted rom a) (w : m.wfFrom rom lo = true) : (m.insert a v).wfFrom rom lo = true := by
  induction m generalizing lo with
  | nil => simp [Memory.insert, Memory.wfFrom, hlo, ha, hv]
  | cons c m ih =>
    obtain ⟨b, u⟩ := c
    simp only [Memory.wfFrom, Bool.and_eq_true, decide_eq_true_eq] at w
    simp only [Memory.insert]
    split
    · simp only [Memory.wfFrom, Bool.and_eq_true, decide_eq_true_eq]
      exact ⟨⟨⟨hlo, ha⟩, hv⟩, ⟨⟨by omega, w.1.1.2⟩, w.1.2⟩, w.2⟩
    · split
      · rename_i h
        subst h
        simp only [Memory.wfFrom, Bool.and_eq_true, decide_eq_true_eq]
        exact ⟨⟨⟨hlo, ha⟩, hv⟩, w.2⟩
      · simp only [Memory.wfFrom, Bool.and_eq_true, decide_eq_true_eq]
        exact ⟨w.1, ih (b + 1) (by omega) w.2⟩

/-- Every write inside memory keeps the canonical form. -/
theorem Memory.wf_write (rom : Vector Byte 80) (m : Memory) (a : Nat) (v : Byte) (ha : a < 4096)
    (w : m.wf rom = true) : (m.write rom a v).wf rom = true := by
  unfold Memory.write Memory.wf
  split
  · exact Memory.wfFrom_erase rom m 0 a w
  · rename_i h; exact Memory.wfFrom_insert rom m 0 a v (by omega) ha h w

/-- Every block write inside memory keeps the canonical form. -/
theorem Memory.wf_writeAll (rom : Vector Byte 80) (bs : List Byte) (m : Memory) (a : Nat) (ha : a + bs.length ≤ 4096)
    (w : m.wf rom = true) : (m.writeAll rom a bs).wf rom = true := by
  induction bs generalizing m a with
  | nil => exact w
  | cons b bs ih =>
    simp only [List.length_cons] at ha
    exact ih _ _ (by omega) (Memory.wf_write rom m a b (by omega) w)

end Sys2Proof.Machine
end

