-- ==== Sys2Proof/Laws/State.lean ====
section
/-!
SUPPORT. What each one-element update of the state leaves in each field, so that no later proof unfolds a record update.
-/

namespace Sys2Proof.Machine

variable (s : State)

@[simp] theorem State.setPc_cfg (a : Word) : (s.setPc a).cfg = s.cfg := rfl
@[simp] theorem State.setPc_mem (a : Word) : (s.setPc a).mem = s.mem := rfl
@[simp] theorem State.setPc_pc (a : Word) : (s.setPc a).pc = a := rfl
@[simp] theorem State.setPc_v (a : Word) : (s.setPc a).v = s.v := rfl
@[simp] theorem State.setPc_index (a : Word) : (s.setPc a).index = s.index := rfl
@[simp] theorem State.setPc_stack (a : Word) : (s.setPc a).stack = s.stack := rfl
@[simp] theorem State.setPc_sp (a : Word) : (s.setPc a).sp = s.sp := rfl
@[simp] theorem State.setPc_dt (a : Word) : (s.setPc a).dt = s.dt := rfl
@[simp] theorem State.setPc_st (a : Word) : (s.setPc a).st = s.st := rfl
@[simp] theorem State.setPc_keys (a : Word) : (s.setPc a).keys = s.keys := rfl
@[simp] theorem State.setPc_fb (a : Word) : (s.setPc a).fb = s.fb := rfl
@[simp] theorem State.setPc_latch (a : Word) : (s.setPc a).latch = s.latch := rfl
@[simp] theorem State.setPc_rnd (a : Word) : (s.setPc a).rnd = s.rnd := rfl
@[simp] theorem State.setPc_draws (a : Word) : (s.setPc a).draws = s.draws := rfl

@[simp] theorem State.setV_cfg (w : Vector Byte 16) : (s.setV w).cfg = s.cfg := rfl
@[simp] theorem State.setV_mem (w : Vector Byte 16) : (s.setV w).mem = s.mem := rfl
@[simp] theorem State.setV_pc (w : Vector Byte 16) : (s.setV w).pc = s.pc := rfl
@[simp] theorem State.setV_v (w : Vector Byte 16) : (s.setV w).v = w := rfl
@[simp] theorem State.setV_index (w : Vector Byte 16) : (s.setV w).index = s.index := rfl
@[simp] theorem State.setV_stack (w : Vector Byte 16) : (s.setV w).stack = s.stack := rfl
@[simp] theorem State.setV_sp (w : Vector Byte 16) : (s.setV w).sp = s.sp := rfl
@[simp] theorem State.setV_dt (w : Vector Byte 16) : (s.setV w).dt = s.dt := rfl
@[simp] theorem State.setV_st (w : Vector Byte 16) : (s.setV w).st = s.st := rfl
@[simp] theorem State.setV_keys (w : Vector Byte 16) : (s.setV w).keys = s.keys := rfl
@[simp] theorem State.setV_fb (w : Vector Byte 16) : (s.setV w).fb = s.fb := rfl
@[simp] theorem State.setV_latch (w : Vector Byte 16) : (s.setV w).latch = s.latch := rfl
@[simp] theorem State.setV_rnd (w : Vector Byte 16) : (s.setV w).rnd = s.rnd := rfl
@[simp] theorem State.setV_draws (w : Vector Byte 16) : (s.setV w).draws = s.draws := rfl

@[simp] theorem State.setIndex_cfg (a : Word) : (s.setIndex a).cfg = s.cfg := rfl
@[simp] theorem State.setIndex_mem (a : Word) : (s.setIndex a).mem = s.mem := rfl
@[simp] theorem State.setIndex_pc (a : Word) : (s.setIndex a).pc = s.pc := rfl
@[simp] theorem State.setIndex_v (a : Word) : (s.setIndex a).v = s.v := rfl
@[simp] theorem State.setIndex_index (a : Word) : (s.setIndex a).index = a := rfl
@[simp] theorem State.setIndex_stack (a : Word) : (s.setIndex a).stack = s.stack := rfl
@[simp] theorem State.setIndex_sp (a : Word) : (s.setIndex a).sp = s.sp := rfl
@[simp] theorem State.setIndex_dt (a : Word) : (s.setIndex a).dt = s.dt := rfl
@[simp] theorem State.setIndex_st (a : Word) : (s.setIndex a).st = s.st := rfl
@[simp] theorem State.setIndex_keys (a : Word) : (s.setIndex a).keys = s.keys := rfl
@[simp] theorem State.setIndex_fb (a : Word) : (s.setIndex a).fb = s.fb := rfl
@[simp] theorem State.setIndex_latch (a : Word) : (s.setIndex a).latch = s.latch := rfl
@[simp] theorem State.setIndex_rnd (a : Word) : (s.setIndex a).rnd = s.rnd := rfl
@[simp] theorem State.setIndex_draws (a : Word) : (s.setIndex a).draws = s.draws := rfl

@[simp] theorem State.setStack_cfg (k : Vector Word 16) (n : Fin 17) : (s.setStack k n).cfg = s.cfg := rfl
@[simp] theorem State.setStack_mem (k : Vector Word 16) (n : Fin 17) : (s.setStack k n).mem = s.mem := rfl
@[simp] theorem State.setStack_pc (k : Vector Word 16) (n : Fin 17) : (s.setStack k n).pc = s.pc := rfl
@[simp] theorem State.setStack_v (k : Vector Word 16) (n : Fin 17) : (s.setStack k n).v = s.v := rfl
@[simp] theorem State.setStack_index (k : Vector Word 16) (n : Fin 17) : (s.setStack k n).index = s.index := rfl
@[simp] theorem State.setStack_stack (k : Vector Word 16) (n : Fin 17) : (s.setStack k n).stack = k := rfl
@[simp] theorem State.setStack_sp (k : Vector Word 16) (n : Fin 17) : (s.setStack k n).sp = n := rfl
@[simp] theorem State.setStack_dt (k : Vector Word 16) (n : Fin 17) : (s.setStack k n).dt = s.dt := rfl
@[simp] theorem State.setStack_st (k : Vector Word 16) (n : Fin 17) : (s.setStack k n).st = s.st := rfl
@[simp] theorem State.setStack_keys (k : Vector Word 16) (n : Fin 17) : (s.setStack k n).keys = s.keys := rfl
@[simp] theorem State.setStack_fb (k : Vector Word 16) (n : Fin 17) : (s.setStack k n).fb = s.fb := rfl
@[simp] theorem State.setStack_latch (k : Vector Word 16) (n : Fin 17) : (s.setStack k n).latch = s.latch := rfl
@[simp] theorem State.setStack_rnd (k : Vector Word 16) (n : Fin 17) : (s.setStack k n).rnd = s.rnd := rfl
@[simp] theorem State.setStack_draws (k : Vector Word 16) (n : Fin 17) : (s.setStack k n).draws = s.draws := rfl

@[simp] theorem State.setDt_cfg (b : Byte) : (s.setDt b).cfg = s.cfg := rfl
@[simp] theorem State.setDt_mem (b : Byte) : (s.setDt b).mem = s.mem := rfl
@[simp] theorem State.setDt_pc (b : Byte) : (s.setDt b).pc = s.pc := rfl
@[simp] theorem State.setDt_v (b : Byte) : (s.setDt b).v = s.v := rfl
@[simp] theorem State.setDt_index (b : Byte) : (s.setDt b).index = s.index := rfl
@[simp] theorem State.setDt_stack (b : Byte) : (s.setDt b).stack = s.stack := rfl
@[simp] theorem State.setDt_sp (b : Byte) : (s.setDt b).sp = s.sp := rfl
@[simp] theorem State.setDt_dt (b : Byte) : (s.setDt b).dt = b := rfl
@[simp] theorem State.setDt_st (b : Byte) : (s.setDt b).st = s.st := rfl
@[simp] theorem State.setDt_keys (b : Byte) : (s.setDt b).keys = s.keys := rfl
@[simp] theorem State.setDt_fb (b : Byte) : (s.setDt b).fb = s.fb := rfl
@[simp] theorem State.setDt_latch (b : Byte) : (s.setDt b).latch = s.latch := rfl
@[simp] theorem State.setDt_rnd (b : Byte) : (s.setDt b).rnd = s.rnd := rfl
@[simp] theorem State.setDt_draws (b : Byte) : (s.setDt b).draws = s.draws := rfl

@[simp] theorem State.setSt_cfg (b : Byte) : (s.setSt b).cfg = s.cfg := rfl
@[simp] theorem State.setSt_mem (b : Byte) : (s.setSt b).mem = s.mem := rfl
@[simp] theorem State.setSt_pc (b : Byte) : (s.setSt b).pc = s.pc := rfl
@[simp] theorem State.setSt_v (b : Byte) : (s.setSt b).v = s.v := rfl
@[simp] theorem State.setSt_index (b : Byte) : (s.setSt b).index = s.index := rfl
@[simp] theorem State.setSt_stack (b : Byte) : (s.setSt b).stack = s.stack := rfl
@[simp] theorem State.setSt_sp (b : Byte) : (s.setSt b).sp = s.sp := rfl
@[simp] theorem State.setSt_dt (b : Byte) : (s.setSt b).dt = s.dt := rfl
@[simp] theorem State.setSt_st (b : Byte) : (s.setSt b).st = b := rfl
@[simp] theorem State.setSt_keys (b : Byte) : (s.setSt b).keys = s.keys := rfl
@[simp] theorem State.setSt_fb (b : Byte) : (s.setSt b).fb = s.fb := rfl
@[simp] theorem State.setSt_latch (b : Byte) : (s.setSt b).latch = s.latch := rfl
@[simp] theorem State.setSt_rnd (b : Byte) : (s.setSt b).rnd = s.rnd := rfl
@[simp] theorem State.setSt_draws (b : Byte) : (s.setSt b).draws = s.draws := rfl

@[simp] theorem State.setKeys_cfg (k : Vector Bool 16) : (s.setKeys k).cfg = s.cfg := rfl
@[simp] theorem State.setKeys_mem (k : Vector Bool 16) : (s.setKeys k).mem = s.mem := rfl
@[simp] theorem State.setKeys_pc (k : Vector Bool 16) : (s.setKeys k).pc = s.pc := rfl
@[simp] theorem State.setKeys_v (k : Vector Bool 16) : (s.setKeys k).v = s.v := rfl
@[simp] theorem State.setKeys_index (k : Vector Bool 16) : (s.setKeys k).index = s.index := rfl
@[simp] theorem State.setKeys_stack (k : Vector Bool 16) : (s.setKeys k).stack = s.stack := rfl
@[simp] theorem State.setKeys_sp (k : Vector Bool 16) : (s.setKeys k).sp = s.sp := rfl
@[simp] theorem State.setKeys_dt (k : Vector Bool 16) : (s.setKeys k).dt = s.dt := rfl
@[simp] theorem State.setKeys_st (k : Vector Bool 16) : (s.setKeys k).st = s.st := rfl
@[simp] theorem State.setKeys_keys (k : Vector Bool 16) : (s.setKeys k).keys = k := rfl
@[simp] theorem State.setKeys_fb (k : Vector Bool 16) : (s.setKeys k).fb = s.fb := rfl
@[simp] theorem State.setKeys_latch (k : Vector Bool 16) : (s.setKeys k).latch = s.latch := rfl
@[simp] theorem State.setKeys_rnd (k : Vector Bool 16) : (s.setKeys k).rnd = s.rnd := rfl
@[simp] theorem State.setKeys_draws (k : Vector Bool 16) : (s.setKeys k).draws = s.draws := rfl

@[simp] theorem State.setFb_cfg (f : Vector (BitVec 64) 32) : (s.setFb f).cfg = s.cfg := rfl
@[simp] theorem State.setFb_mem (f : Vector (BitVec 64) 32) : (s.setFb f).mem = s.mem := rfl
@[simp] theorem State.setFb_pc (f : Vector (BitVec 64) 32) : (s.setFb f).pc = s.pc := rfl
@[simp] theorem State.setFb_v (f : Vector (BitVec 64) 32) : (s.setFb f).v = s.v := rfl
@[simp] theorem State.setFb_index (f : Vector (BitVec 64) 32) : (s.setFb f).index = s.index := rfl
@[simp] theorem State.setFb_stack (f : Vector (BitVec 64) 32) : (s.setFb f).stack = s.stack := rfl
@[simp] theorem State.setFb_sp (f : Vector (BitVec 64) 32) : (s.setFb f).sp = s.sp := rfl
@[simp] theorem State.setFb_dt (f : Vector (BitVec 64) 32) : (s.setFb f).dt = s.dt := rfl
@[simp] theorem State.setFb_st (f : Vector (BitVec 64) 32) : (s.setFb f).st = s.st := rfl
@[simp] theorem State.setFb_keys (f : Vector (BitVec 64) 32) : (s.setFb f).keys = s.keys := rfl
@[simp] theorem State.setFb_fb (f : Vector (BitVec 64) 32) : (s.setFb f).fb = f := rfl
@[simp] theorem State.setFb_latch (f : Vector (BitVec 64) 32) : (s.setFb f).latch = s.latch := rfl
@[simp] theorem State.setFb_rnd (f : Vector (BitVec 64) 32) : (s.setFb f).rnd = s.rnd := rfl
@[simp] theorem State.setFb_draws (f : Vector (BitVec 64) 32) : (s.setFb f).draws = s.draws := rfl

@[simp] theorem State.setLatch_cfg (l : FaultLatch) : (s.setLatch l).cfg = s.cfg := rfl
@[simp] theorem State.setLatch_mem (l : FaultLatch) : (s.setLatch l).mem = s.mem := rfl
@[simp] theorem State.setLatch_pc (l : FaultLatch) : (s.setLatch l).pc = s.pc := rfl
@[simp] theorem State.setLatch_v (l : FaultLatch) : (s.setLatch l).v = s.v := rfl
@[simp] theorem State.setLatch_index (l : FaultLatch) : (s.setLatch l).index = s.index := rfl
@[simp] theorem State.setLatch_stack (l : FaultLatch) : (s.setLatch l).stack = s.stack := rfl
@[simp] theorem State.setLatch_sp (l : FaultLatch) : (s.setLatch l).sp = s.sp := rfl
@[simp] theorem State.setLatch_dt (l : FaultLatch) : (s.setLatch l).dt = s.dt := rfl
@[simp] theorem State.setLatch_st (l : FaultLatch) : (s.setLatch l).st = s.st := rfl
@[simp] theorem State.setLatch_keys (l : FaultLatch) : (s.setLatch l).keys = s.keys := rfl
@[simp] theorem State.setLatch_fb (l : FaultLatch) : (s.setLatch l).fb = s.fb := rfl
@[simp] theorem State.setLatch_latch (l : FaultLatch) : (s.setLatch l).latch = l := rfl
@[simp] theorem State.setLatch_rnd (l : FaultLatch) : (s.setLatch l).rnd = s.rnd := rfl
@[simp] theorem State.setLatch_draws (l : FaultLatch) : (s.setLatch l).draws = s.draws := rfl

@[simp] theorem State.setMem_cfg (m : Memory) : (s.setMem m).cfg = s.cfg := rfl
@[simp] theorem State.setMem_mem (m : Memory) : (s.setMem m).mem = m := rfl
@[simp] theorem State.setMem_pc (m : Memory) : (s.setMem m).pc = s.pc := rfl
@[simp] theorem State.setMem_v (m : Memory) : (s.setMem m).v = s.v := rfl
@[simp] theorem State.setMem_index (m : Memory) : (s.setMem m).index = s.index := rfl
@[simp] theorem State.setMem_stack (m : Memory) : (s.setMem m).stack = s.stack := rfl
@[simp] theorem State.setMem_sp (m : Memory) : (s.setMem m).sp = s.sp := rfl
@[simp] theorem State.setMem_dt (m : Memory) : (s.setMem m).dt = s.dt := rfl
@[simp] theorem State.setMem_st (m : Memory) : (s.setMem m).st = s.st := rfl
@[simp] theorem State.setMem_keys (m : Memory) : (s.setMem m).keys = s.keys := rfl
@[simp] theorem State.setMem_fb (m : Memory) : (s.setMem m).fb = s.fb := rfl
@[simp] theorem State.setMem_latch (m : Memory) : (s.setMem m).latch = s.latch := rfl
@[simp] theorem State.setMem_rnd (m : Memory) : (s.setMem m).rnd = s.rnd := rfl
@[simp] theorem State.setMem_draws (m : Memory) : (s.setMem m).draws = s.draws := rfl

@[simp] theorem State.setRnd_cfg (r : Byte) (n : Nat) : (s.setRnd r n).cfg = s.cfg := rfl
@[simp] theorem State.setRnd_mem (r : Byte) (n : Nat) : (s.setRnd r n).mem = s.mem := rfl
@[simp] theorem State.setRnd_pc (r : Byte) (n : Nat) : (s.setRnd r n).pc = s.pc := rfl
@[simp] theorem State.setRnd_v (r : Byte) (n : Nat) : (s.setRnd r n).v = s.v := rfl
@[simp] theorem State.setRnd_index (r : Byte) (n : Nat) : (s.setRnd r n).index = s.index := rfl
@[simp] theorem State.setRnd_stack (r : Byte) (n : Nat) : (s.setRnd r n).stack = s.stack := rfl
@[simp] theorem State.setRnd_sp (r : Byte) (n : Nat) : (s.setRnd r n).sp = s.sp := rfl
@[simp] theorem State.setRnd_dt (r : Byte) (n : Nat) : (s.setRnd r n).dt = s.dt := rfl
@[simp] theorem State.setRnd_st (r : Byte) (n : Nat) : (s.setRnd r n).st = s.st := rfl
@[simp] theorem State.setRnd_keys (r : Byte) (n : Nat) : (s.setRnd r n).keys = s.keys := rfl
@[simp] theorem State.setRnd_fb (r : Byte) (n : Nat) : (s.setRnd r n).fb = s.fb := rfl
@[simp] theorem State.setRnd_latch (r : Byte) (n : Nat) : (s.setRnd r n).latch = s.latch := rfl
@[simp] theorem State.setRnd_rnd (r : Byte) (n : Nat) : (s.setRnd r n).rnd = r := rfl
@[simp] theorem State.setRnd_draws (r : Byte) (n : Nat) : (s.setRnd r n).draws = n := rfl

end Sys2Proof.Machine
end

