-- ==== Sys2Proof/Laws/Ops.lean ====
section
/-!
SUPPORT. One lemma for each shared operation that says everything it can do; later proofs cite these and do not unfold the
operation.
-/

namespace Sys2Proof.Machine

/-! ### Registers -/

theorem Reg.toNat_inj {x y : Reg} : x.toNat = y.toNat ↔ x = y := BitVec.toNat_inj

@[simp] theorem State.setReg_reg (s : State) (x y : Reg) (b : Byte) :
    (s.setReg x b).reg y = if y = x then b else s.reg y := by
  simp only [State.setReg, State.reg, State.setV_v, Vector.getElem_set]
  simp [BitVec.toNat_inj, eq_comm]

@[simp] theorem State.setReg_cfg (s : State) (x : Reg) (b : Byte) : (s.setReg x b).cfg = s.cfg := rfl
@[simp] theorem State.setReg_mem (s : State) (x : Reg) (b : Byte) : (s.setReg x b).mem = s.mem := rfl
@[simp] theorem State.setReg_pc (s : State) (x : Reg) (b : Byte) : (s.setReg x b).pc = s.pc := rfl
@[simp] theorem State.setReg_index (s : State) (x : Reg) (b : Byte) : (s.setReg x b).index = s.index := rfl
@[simp] theorem State.setReg_stack (s : State) (x : Reg) (b : Byte) : (s.setReg x b).stack = s.stack := rfl
@[simp] theorem State.setReg_sp (s : State) (x : Reg) (b : Byte) : (s.setReg x b).sp = s.sp := rfl
@[simp] theorem State.setReg_dt (s : State) (x : Reg) (b : Byte) : (s.setReg x b).dt = s.dt := rfl
@[simp] theorem State.setReg_st (s : State) (x : Reg) (b : Byte) : (s.setReg x b).st = s.st := rfl
@[simp] theorem State.setReg_keys (s : State) (x : Reg) (b : Byte) : (s.setReg x b).keys = s.keys := rfl
@[simp] theorem State.setReg_fb (s : State) (x : Reg) (b : Byte) : (s.setReg x b).fb = s.fb := rfl
@[simp] theorem State.setReg_latch (s : State) (x : Reg) (b : Byte) : (s.setReg x b).latch = s.latch := rfl
@[simp] theorem State.setReg_rnd (s : State) (x : Reg) (b : Byte) : (s.setReg x b).rnd = s.rnd := rfl
@[simp] theorem State.setReg_draws (s : State) (x : Reg) (b : Byte) : (s.setReg x b).draws = s.draws := rfl

theorem State.regNo_toNat (s : State) (x : Reg) : s.regNo x.toNat = s.reg x := by
  simp [State.regNo, State.reg, x.isLt]

/-- VF ends with the flag; with x ≠ 15 V[x] ends with the result. -/
theorem State.setRegFlag_reg (s : State) (x y : Reg) (r f : Byte) :
    (s.setRegFlag x r f).reg y = if y = VF then f else if y = x then r else s.reg y := by
  simp [State.setRegFlag]

theorem State.setRegFlag_reg_vf (s : State) (x : Reg) (r f : Byte) : (s.setRegFlag x r f).reg VF = f := by
  rw [State.setRegFlag_reg, if_pos rfl]

theorem State.setRegFlag_reg_result (s : State) {x : Reg} (r f : Byte) (h : x ≠ VF) :
    (s.setRegFlag x r f).reg x = r := by
  rw [State.setRegFlag_reg, if_neg h, if_pos rfl]

@[simp] theorem State.reg_setPc (s : State) (a : Word) (r : Reg) : (s.setPc a).reg r = s.reg r := rfl
@[simp] theorem State.reg_setIndex (s : State) (a : Word) (r : Reg) : (s.setIndex a).reg r = s.reg r := rfl
@[simp] theorem State.reg_setStack (s : State) (k n) (r : Reg) : (s.setStack k n).reg r = s.reg r := rfl
@[simp] theorem State.reg_setDt (s : State) (b : Byte) (r : Reg) : (s.setDt b).reg r = s.reg r := rfl
@[simp] theorem State.reg_setSt (s : State) (b : Byte) (r : Reg) : (s.setSt b).reg r = s.reg r := rfl
@[simp] theorem State.reg_setKeys (s : State) (k) (r : Reg) : (s.setKeys k).reg r = s.reg r := rfl
@[simp] theorem State.reg_setFb (s : State) (f) (r : Reg) : (s.setFb f).reg r = s.reg r := rfl
@[simp] theorem State.reg_setLatch (s : State) (l) (r : Reg) : (s.setLatch l).reg r = s.reg r := rfl
@[simp] theorem State.reg_setMem (s : State) (m) (r : Reg) : (s.setMem m).reg r = s.reg r := rfl
@[simp] theorem State.reg_setRnd (s : State) (b n) (r : Reg) : (s.setRnd b n).reg r = s.reg r := rfl

/-- A block of bytes loaded into V[k], V[k+1], …: register `j` gets byte `j - k`, every other register is as before. -/
theorem setRegsFrom_get (bs : List Byte) (v : Vector Byte 16) (k : Nat) (j : Nat) (hj : j < 16) :
    (setRegsFrom v k bs)[j] = if k ≤ j then (bs[j - k]?).getD v[j] else v[j] := by
  induction bs generalizing v k with
  | nil => simp [setRegsFrom]
  | cons b bs ih =>
    rw [setRegsFrom, ih]
    rcases Nat.lt_trichotomy k j with h | h | h
    · have e : j - k = (j - (k + 1)) + 1 := by omega
      have hk : k < 16 := by omega
      simp [show k + 1 ≤ j from h, show k ≤ j by omega, hk, e, show ¬ k = j by omega]
    · subst h; simp [hj]
    · have e1 : ¬ k + 1 ≤ j := by omega
      have e2 : ¬ k ≤ j := by omega
      by_cases hk : k < 16
      · simp [e1, e2, hk, show ¬ k = j by omega]
      · simp [e1, e2, hk]

/-! ### Memory accesses -/

@[simp] theorem State.byteAt_setPc (s : State) (p : Word) (a : Nat) : (s.setPc p).byteAt a = s.byteAt a := rfl
@[simp] theorem State.byteAt_setV (s : State) (v) (a : Nat) : (s.setV v).byteAt a = s.byteAt a := rfl
@[simp] theorem State.byteAt_setReg (s : State) (x b) (a : Nat) : (s.setReg x b).byteAt a = s.byteAt a := rfl
@[simp] theorem State.byteAt_setIndex (s : State) (p : Word) (a : Nat) : (s.setIndex p).byteAt a = s.byteAt a := rfl
@[simp] theorem State.byteAt_setStack (s : State) (k n) (a : Nat) : (s.setStack k n).byteAt a = s.byteAt a := rfl
@[simp] theorem State.byteAt_setDt (s : State) (b : Byte) (a : Nat) : (s.setDt b).byteAt a = s.byteAt a := rfl
@[simp] theorem State.byteAt_setSt (s : State) (b : Byte) (a : Nat) : (s.setSt b).byteAt a = s.byteAt a := rfl
@[simp] theorem State.byteAt_setKeys (s : State) (k) (a : Nat) : (s.setKeys k).byteAt a = s.byteAt a := rfl
@[simp] theorem State.byteAt_setFb (s : State) (f) (a : Nat) : (s.setFb f).byteAt a = s.byteAt a := rfl
@[simp] theorem State.byteAt_setLatch (s : State) (l) (a : Nat) : (s.setLatch l).byteAt a = s.byteAt a := rfl
@[simp] theorem State.byteAt_setRnd (s : State) (b n) (a : Nat) : (s.setRnd b n).byteAt a = s.byteAt a := rfl

/-- MemAddr answers an index inside memory: the address itself below 4096, else its remainder, under Wrap only. -/
theorem memAddr_ok {p : OobPolicy} {a b : Nat} (h : memAddr p a = .ok b) :
    b < 4096 ∧ b = a % 4096 ∧ (a < 4096 ∨ p = .wrap) := by
  unfold memAddr at h
  split at h
  · injection h with h; omega
  · cases p
    · simp at h
    · injection h with h; subst h; exact ⟨by omega, rfl, .inr rfl⟩

/-- MemAddr raises MemoryBounds of the address itself, at 4096 or more under Fault, and nothing else. -/
theorem memAddr_error {p : OobPolicy} {a : Nat} {f : Fault} (h : memAddr p a = .error f) :
    f = .memoryBounds a ∧ 4096 ≤ a ∧ p = .fault := by
  unfold memAddr at h
  split at h
  · simp at h
  · cases p
    · injection h with h; exact ⟨h.symm, by omega, rfl⟩
    · simp at h

theorem memAddr_below {p : OobPolicy} {a : Nat} (h : a < 4096) : memAddr p a = .ok a := by simp [memAddr, h]

/-- A store goes to an index inside memory, and into the font region only under FONT_WRITE_POLICY = Write. -/
theorem storeAddr_ok {c : Config} {a b : Nat} (h : storeAddr c a = .ok b) :
    memAddr c.oob a = .ok b ∧ b < 4096 ∧ (80 ≤ b ∨ c.fontWrite = .write) := by
  unfold storeAddr at h
  split at h
  · simp at h
  · rename_i d hd
    have hb := (memAddr_ok hd).1
    split at h
    · split at h
      · simp at h
      · rename_i hw; injection h with h; subst h; exact ⟨hd, hb, .inr hw⟩
    · injection h with h; subst h; exact ⟨hd, hb, .inl (by omega)⟩

/-- A store raises MemoryBounds as MemAddr does, or FontWrite of an index below 80 under Fault. -/
theorem storeAddr_error {c : Config} {a : Nat} {f : Fault} (h : storeAddr c a = .error f) :
    (f = .memoryBounds a ∧ 4096 ≤ a ∧ c.oob = .fault) ∨
    (∃ b, f = .fontWrite b ∧ b < 80 ∧ memAddr c.oob a = .ok b ∧ c.fontWrite = .fault) := by
  unfold storeAddr at h
  split at h
  · rename_i g hg; injection h with h; subst h; exact .inl (memAddr_error hg)
  · rename_i d hd
    split at h
    · split at h
      · rename_i hlt _ hw; injection h with h; exact .inr ⟨d, h.symm, hlt, hd, hw⟩
      · simp at h
    · simp at h

theorem storeAddr_plain {c : Config} {a : Nat} (h1 : 80 ≤ a) (h2 : a < 4096) : storeAddr c a = .ok a := by
  simp [storeAddr, memAddr_below h2, show ¬ a < 80 by omega]

theorem State.memRead_ok {s : State} {a : Nat} {b : Byte} (h : s.memRead a = .ok b) :
    ∃ k, memAddr s.cfg.oob a = .ok k ∧ b = s.byteAt k := by
  unfold State.memRead at h
  split at h
  · simp at h
  · rename_i k hk; injection h with h; exact ⟨k, hk, h.symm⟩

theorem State.memRead_error {s : State} {a : Nat} {f : Fault} (h : s.memRead a = .error f) :
    memAddr s.cfg.oob a = .error f := by
  unfold State.memRead at h
  split at h
  · rename_i g hg; injection h with h; subst h; exact hg
  · simp at h

/-- A byte store: one byte of memory, and nothing else. -/
theorem State.memWrite_ok {s t : State} {a : Nat} {v : Byte} (h : s.memWrite a v = .ok t) :
    ∃ k, storeAddr s.cfg a = .ok k ∧ t = s.setMem (s.mem.write s.cfg.fontRom k v) ∧
      ∀ c, t.byteAt c = if c = k then v else s.byteAt c := by
  unfold State.memWrite at h
  split at h
  · simp at h
  · rename_i k hk
    injection h with h
    subst h
    exact ⟨k, hk, rfl, fun c => Memory.read_write _ _ _ _ _⟩

theorem State.memWrite_error {s : State} {a : Nat} {v : Byte} {f : Fault} (h : s.memWrite a v = .error f) :
    storeAddr s.cfg a = .error f := by
  unfold State.memWrite at h
  split at h
  · rename_i g hg; injection h with h; subst h; exact hg
  · simp at h

/-- A block read answers the byte at every address of the block, or raises at the first address that does. -/
theorem State.readBytes_ok {s : State} {a n : Nat} {bs : List Byte} (h : s.readBytes a n = .ok bs) :
    bs.length = n ∧ ∀ k, k < n → ∃ c, memAddr s.cfg.oob (a + k) = .ok c ∧ bs[k]? = some (s.byteAt c) := by
  induction n generalizing a bs with
  | zero => simp only [State.readBytes, Except.ok.injEq] at h; subst h; simp
  | succ n ih =>
    rw [State.readBytes] at h
    split at h
    · simp at h
    · rename_i b hb
      split at h
      · simp at h
      · rename_i cs hcs
        injection h with h
        subst h
        obtain ⟨hl, hk⟩ := ih hcs
        refine ⟨by simp [hl], fun k hk' => ?_⟩
        obtain ⟨c, hc, rfl⟩ := State.memRead_ok hb
        cases k with
        | zero => exact ⟨c, hc, rfl⟩
        | succ k =>
          obtain ⟨d, hd, he⟩ := hk k (by omega)
          exact ⟨d, by rw [show a + (k + 1) = a + 1 + k by omega]; exact hd, by simpa using he⟩

theorem State.readBytes_error {s : State} {a n : Nat} {f : Fault} (h : s.readBytes a n = .error f) :
    ∃ k, k < n ∧ memAddr s.cfg.oob (a + k) = .error f ∧ ∀ j, j < k → ∃ c, memAddr s.cfg.oob (a + j) = .ok c := by
  induction n generalizing a with
  | zero => simp [State.readBytes] at h
  | succ n ih =>
    rw [State.readBytes] at h
    split at h
    · rename_i g hg
      injection h with h
      subst h
      exact ⟨0, by omega, State.memRead_error hg, fun j hj => by omega⟩
    · rename_i b hb
      split at h
      · rename_i g hg
        injection h with h
        subst h
        obtain ⟨k, hk, he, hj⟩ := ih hg
        obtain ⟨c, hc, -⟩ := State.memRead_ok hb
        refine ⟨k + 1, by omega, by rw [show a + (k + 1) = a + 1 + k by omega]; exact he, fun j hj' => ?_⟩
        cases j with
        | zero => exact ⟨c, hc⟩
        | succ j => rw [show a + (j + 1) = a + 1 + j by omega]; exact hj j (by omega)
      · simp at h

/-- A block read of addresses that are all in memory succeeds. -/
theorem State.readBytes_of_ok {s : State} {a n : Nat} (h : ∀ k, k < n → ∃ c, memAddr s.cfg.oob (a + k) = .ok c) :
    ∃ bs, s.readBytes a n = .ok bs := by
  cases hr : s.readBytes a n with
  | ok bs => exact ⟨bs, rfl⟩
  | error f =>
    obtain ⟨k, hk, he, -⟩ := State.readBytes_error hr
    obtain ⟨c, hc⟩ := h k hk
    rw [hc] at he
    simp at he

/-- A block write changes memory alone, keeps its canonical form, and every address of the block could be stored to. -/
theorem State.writeBytes_ok {bs : List Byte} {s t : State} {a : Nat} (h : s.writeBytes a bs = .ok t) :
    (∃ m, t = s.setMem m) ∧ (s.mem.wf s.cfg.fontRom = true → t.mem.wf s.cfg.fontRom = true) ∧
    (∀ k, k < bs.length → ∃ c, storeAddr s.cfg (a + k) = .ok c) ∧
    (∀ c, (∀ k, k < bs.length → storeAddr s.cfg (a + k) ≠ .ok c) → t.byteAt c = s.byteAt c) := by
  induction bs generalizing s a with
  | nil =>
    simp only [State.writeBytes, Except.ok.injEq] at h
    subst h
    exact ⟨⟨s.mem, rfl⟩, id, by simp, by simp⟩
  | cons b bs ih =>
    rw [State.writeBytes] at h
    split at h
    · simp at h
    · rename_i u hu
      obtain ⟨c, hc, rfl, hb⟩ := State.memWrite_ok hu
      obtain ⟨⟨m, rfl⟩, hw, hk, hn⟩ := ih h
      refine ⟨⟨m, rfl⟩, fun w => hw (Memory.wf_write _ _ _ _ (storeAddr_ok hc).2.1 w), fun k hk' => ?_, fun d hd => ?_⟩
      · cases k with
        | zero => exact ⟨c, hc⟩
        | succ k =>
          rw [show a + (k + 1) = a + 1 + k by omega]
          exact hk k (by simp at hk'; omega)
      · rw [hn d fun k hk' => by
          have := hd (k + 1) (by simp; omega)
          rw [show a + (k + 1) = a + 1 + k by omega] at this
          exact this, hb d, if_neg]
        rintro rfl
        exact hd 0 (by simp) hc

/-- The bytes a block write leaves: byte `k` where address `a + k` goes, for a block no longer than memory. -/
theorem State.writeBytes_byteAt {bs : List Byte} {s t : State} {a : Nat} (h : s.writeBytes a bs = .ok t)
    (hl : bs.length ≤ 4096) {k c : Nat} {v : Byte} (hk : bs[k]? = some v) (hc : storeAddr s.cfg (a + k) = .ok c) :
    t.byteAt c = v := by
  induction bs generalizing s a k with
  | nil => simp at hk
  | cons b bs ih =>
    rw [State.writeBytes] at h
    split at h
    · simp at h
    · rename_i u hu
      obtain ⟨d, hd, rfl, hb⟩ := State.memWrite_ok hu
      simp only [List.length_cons] at hl
      cases k with
      | succ k => exact ih h (by omega) (by simpa using hk) (by rw [show a + 1 + k = a + (k + 1) by omega]; exact hc)
      | zero =>
        simp only [List.getElem?_cons_zero, Option.some.injEq] at hk
        subst hk
        obtain ⟨-, -, -, hn⟩ := State.writeBytes_ok h
        have hcd : c = d := by
          have := hd.symm.trans hc
          simpa using this.symm
        subst hcd
        rw [hn c ?_, hb c, if_pos rfl]
        intro j hj hs
        have e1 := (memAddr_ok (storeAddr_ok hs).1).2.1
        have e2 := (memAddr_ok (storeAddr_ok hc).1).2.1
        omega

/-- A block write raises what its first failing address raises. -/
theorem State.writeBytes_error {bs : List Byte} {s : State} {a : Nat} {f : Fault} (h : s.writeBytes a bs = .error f) :
    ∃ k, k < bs.length ∧ storeAddr s.cfg (a + k) = .error f ∧ ∀ j, j < k → ∃ c, storeAddr s.cfg (a + j) = .ok c := by
  induction bs generalizing s a with
  | nil => simp [State.writeBytes] at h
  | cons b bs ih =>
    rw [State.writeBytes] at h
    split at h
    · rename_i g hg
      injection h with h
      subst h
      exact ⟨0, by simp, State.memWrite_error hg, fun j hj => by omega⟩
    · rename_i u hu
      obtain ⟨c, hc, rfl, -⟩ := State.memWrite_ok hu
      obtain ⟨k, hk, he, hj⟩ := ih h
      refine ⟨k + 1, by simp; omega, by rw [show a + (k + 1) = a + 1 + k by omega]; exact he, fun j hj' => ?_⟩
      cases j with
      | zero => exact ⟨c, hc⟩
      | succ j => rw [show a + (j + 1) = a + 1 + j by omega]; exact hj j (by omega)

/-- A block write whose addresses can all be stored to succeeds. -/
theorem State.writeBytes_of_ok {bs : List Byte} {s : State} {a : Nat}
    (h : ∀ k, k < bs.length → ∃ c, storeAddr s.cfg (a + k) = .ok c) : ∃ t, s.writeBytes a bs = .ok t := by
  cases hr : s.writeBytes a bs with
  | ok t => exact ⟨t, rfl⟩
  | error f =>
    obtain ⟨k, hk, he, -⟩ := State.writeBytes_error hr
    obtain ⟨c, hc⟩ := h k hk
    rw [hc] at he
    simp at he

/-- A fetch answers the two bytes at PC and PC+1, high byte first. -/
theorem State.fetch_ok {s : State} {w : Word} (h : s.fetch = .ok w) :
    ∃ a b, memAddr s.cfg.oob s.pc.toNat = .ok a ∧ memAddr s.cfg.oob (s.pc.toNat + 1) = .ok b ∧
      w = wordOfBytes (s.byteAt a) (s.byteAt b) := by
  unfold State.fetch at h
  split at h
  · simp at h
  · rename_i hi hhi
    split at h
    · simp at h
    · rename_i lo hlo
      obtain ⟨a, ha, rfl⟩ := State.memRead_ok hhi
      obtain ⟨b, hb, rfl⟩ := State.memRead_ok hlo
      injection h with h
      exact ⟨a, b, ha, hb, h.symm⟩

/-- A fetch raises MemoryBounds of the first of PC and PC+1 that is outside memory, under Fault. -/
theorem State.fetch_error {s : State} {f : Fault} (h : s.fetch = .error f) :
    s.cfg.oob = .fault ∧ 4095 ≤ s.pc.toNat ∧
      f = .memoryBounds (if s.pc.toNat = 4095 then 4096 else s.pc.toNat) := by
  unfold State.fetch at h
  split at h
  · rename_i g hg
    injection h with h
    subst h
    obtain ⟨rfl, h1, h2⟩ := memAddr_error (State.memRead_error hg)
    exact ⟨h2, by omega, by rw [if_neg (by omega)]⟩
  · rename_i hi hhi
    split at h
    · rename_i g hg
      injection h with h
      subst h
      obtain ⟨rfl, h1, h2⟩ := memAddr_error (State.memRead_error hg)
      obtain ⟨a, ha, -⟩ := State.memRead_ok hhi
      obtain ⟨-, -, h3⟩ := memAddr_ok ha
      rw [h2] at h3
      have h4 : s.pc.toNat < 4096 := by simpa using h3
      exact ⟨h2, by omega, by rw [if_pos (by omega)]; congr 1; omega⟩
    · simp at h

theorem State.fetch_eq {s : State} {a b : Nat} (ha : memAddr s.cfg.oob s.pc.toNat = .ok a)
    (hb : memAddr s.cfg.oob (s.pc.toNat + 1) = .ok b) : s.fetch = .ok (wordOfBytes (s.byteAt a) (s.byteAt b)) := by
  simp [State.fetch, State.memRead, ha, hb]

/-! ### The stack -/

theorem State.push_ok {s t : State} {r : Word} (h : s.push r = .ok t) :
    ∃ hs : s.sp.val < 16, t = s.setStack (s.stack.set s.sp.val r) ⟨s.sp.val + 1, by omega⟩ := by
  unfold State.push at h
  split at h
  · rename_i hs; injection h with h; exact ⟨hs, h.symm⟩
  · simp at h

theorem State.push_error {s : State} {r : Word} {f : Fault} (h : s.push r = .error f) :
    f = .stackOverflow ∧ s.sp = 16 := by
  unfold State.push at h
  split at h
  · simp at h
  · rename_i hs
    injection h with h
    exact ⟨h.symm, Fin.ext (by have := s.sp.isLt; show s.sp.val = 16; omega)⟩

theorem State.pop_ok {s t : State} {a : Word} (h : s.pop = .ok (a, t)) :
    ∃ hs : 0 < s.sp.val, a = s.stack[s.sp.val - 1]'(by have := s.sp.isLt; omega) ∧
      t = s.setStack s.stack ⟨s.sp.val - 1, by have := s.sp.isLt; omega⟩ := by
  unfold State.pop at h
  split at h
  · rename_i hs
    injection h with h
    injection h with h1 h2
    exact ⟨hs, h1.symm, h2.symm⟩
  · simp at h

theorem State.pop_error {s : State} {f : Fault} (h : s.pop = .error f) : f = .stackUnderflow ∧ s.sp = 0 := by
  unfold State.pop at h
  split at h
  · simp at h
  · rename_i hs
    injection h with h
    exact ⟨h.symm, Fin.ext (by show s.sp.val = 0; omega)⟩

/-! ### The framebuffer -/

@[simp] theorem pixel_fbClear (p : Nat) : pixel fbClear p = false := by
  unfold pixel fbClear; split <;> simp

/-- FBToggle inverts one pixel and leaves every other. -/
theorem pixel_fbToggle (f : Vector (BitVec 64) 32) {p : Nat} (hp : p < 2048) (q : Nat) :
    pixel (fbToggle f p) q = if q = p then !pixel f q else pixel f q := by
  have hp' : p / 64 < 32 := by omega
  unfold pixel fbToggle
  simp only [hp', dif_pos]
  by_cases hq : q / 64 < 32
  · simp only [hq, dif_pos, Vector.getElem_set]
    by_cases h : q = p
    · subst h; simp [Nat.mod_lt]
    · by_cases hr : p / 64 = q / 64
      · have hm : p % 64 ≠ q % 64 := by omega
        simp [hr, h, BitVec.getLsbD_twoPow, hm]
      · simp [hr, h]
  · have : q ≠ p := by rintro rfl; exact hq hp'
    simp [hq, this]

/-- Two framebuffers with the same 2048 pixels are the same. -/
theorem fb_ext {f g : Vector (BitVec 64) 32} (h : ∀ p, p < 2048 → pixel f p = pixel g p) : f = g := by
  apply Vector.ext
  intro r hr
  apply BitVec.eq_of_getLsbD_eq
  intro c hc
  have := h (c + 64 * r) (by omega)
  unfold pixel at this
  have e1 : (c + 64 * r) / 64 = r := by omega
  have e2 : (c + 64 * r) % 64 = c := by omega
  simpa [e1, e2, hr] using this

/-! ### Keys and skips -/

theorem keyIndex_ok {p : KeyIndexPolicy} {vx : Byte} {k : Nat} (h : keyIndex p vx = .ok k) :
    k < 16 ∧ k = vx.toNat % 16 ∧ (vx.toNat < 16 ∨ p = .lowNibble) := by
  unfold keyIndex at h
  split at h
  · injection h with h; omega
  · cases p
    · simp at h
    · injection h with h
      subst h
      have : (vx &&& 0x0F).toNat = vx.toNat % 16 := by
        rw [BitVec.toNat_and]
        exact Nat.and_two_pow_sub_one_eq_mod _ 4
      exact ⟨by omega, this, .inr rfl⟩

theorem keyIndex_error {p : KeyIndexPolicy} {vx : Byte} {f : Fault} (h : keyIndex p vx = .error f) :
    f = .keyIndex vx ∧ 16 ≤ vx.toNat ∧ p = .fault := by
  unfold keyIndex at h
  split at h
  · simp at h
  · cases p
    · injection h with h; exact ⟨h.symm, by omega, rfl⟩
    · simp at h

theorem State.skipIf_pc (s : State) (c : Bool) : (s.skipIf c).pc = if c then s.pc + 2 else s.pc := by
  cases c <;> rfl

/-- A skip changes PC alone. -/
theorem State.skipIf_eq (s : State) (c : Bool) : s.skipIf c = s.setPc (if c then s.pc + 2 else s.pc) := by
  cases c <;> rfl

/-- The lowest pressed key is pressed, and no lower one is. -/
theorem State.lowestKey_some {s : State} {k : Nat} (h : s.lowestKey = some k) :
    k < 16 ∧ s.keyAt k = true ∧ ∀ j, j < k → s.keyAt j = false := by
  unfold State.lowestKey at h
  rw [List.find?_range_eq_some] at h
  refine ⟨by simpa using h.2.1, h.1, fun j hj => ?_⟩
  simpa using h.2.2 j hj

theorem State.lowestKey_none {s : State} (h : s.lowestKey = none) : ∀ j, j < 16 → s.keyAt j = false := by
  intro j hj
  unfold State.lowestKey at h
  rw [List.find?_eq_none] at h
  simpa using h j (by simpa using hj)

/-! ### Taking a fault, and ending an instruction -/

theorem State.takeFault_eq (s : State) (f : Fault) (a w : Word) :
    s.takeFault f a w =
      (s.setPc a).setLatch { halted := true, cause := f.code, pc := a, word := w, addr := f.info } := rfl

/-- An instruction always ends in a next state: what it made, or the fault it raised. -/
theorem State.finish_next {s t : State} {i : Instr} {r : Except Fault State} :
    s.finish i r = .next t ↔ r = .ok t ∨ ∃ f, r = .error f ∧ t = s.raise i f := by
  cases r with
  | ok u => simp [State.finish]
  | error f => simp [State.finish, eq_comm]

theorem State.finish_isNext (s : State) (i : Instr) (r : Except Fault State) : ∃ t, s.finish i r = .next t := by
  cases r with
  | ok u => exact ⟨u, rfl⟩
  | error f => exact ⟨_, rfl⟩

end Sys2Proof.Machine
end

