-- ==== Sys2Proof/Laws/Display.lean ====
section
/-!
SUPPORT. The sprite datapath: what one row and a whole sprite leave in a pixel, and the collision they report.
-/

namespace Sys2Proof.Machine

theorem spritePixel_lt (x0 y0 r c : Nat) : spritePixel x0 y0 r c < 2048 := by
  unfold spritePixel; omega

/-- No two of the cells of a sprite of at most 32 rows lie on one pixel (R182). -/
theorem spritePixel_inj {x0 y0 r r' c c' : Nat} (hr : r < 32) (hr' : r' < 32) (hc : c < 8) (hc' : c' < 8)
    (h : spritePixel x0 y0 r c = spritePixel x0 y0 r' c') : r = r' ∧ c = c' := by
  unfold spritePixel at h
  have hx : (x0 + c) % 64 = (x0 + c') % 64 := by omega
  have hy : (y0 + r) % 32 = (y0 + r') % 32 := by omega
  omega

/-- The pixels that the columns 8 - k to 7 of one sprite row lie on. -/
def UnderRow (x0 y0 r : Nat) (row : Byte) (k p : Nat) : Prop :=
  ∃ j, j < k ∧ row.getLsbD j = true ∧ p = spritePixel x0 y0 r (7 - j)

/-- One sprite row inverts exactly the pixels under its 1-bits, and adds a collision when one of them was set. -/
theorem drawColumns_spec (x0 y0 r : Nat) (row : Byte) (k : Nat) (hk : k ≤ 8) (pic : Picture) :
    (∀ p, (UnderRow x0 y0 r row k p → pixel (drawColumns x0 y0 r row k pic).1 p = !pixel pic.1 p) ∧
      (¬ UnderRow x0 y0 r row k p → pixel (drawColumns x0 y0 r row k pic).1 p = pixel pic.1 p)) ∧
    ((drawColumns x0 y0 r row k pic).2 = true ↔ pic.2 = true ∨ ∃ p, UnderRow x0 y0 r row k p ∧ pixel pic.1 p = true) := by
  induction k generalizing pic with
  | zero => simp [drawColumns, UnderRow]
  | succ k ih =>
    rw [drawColumns]
    by_cases hb : row.getLsbD k = true
    · rw [if_pos hb]
      have hlt := spritePixel_lt x0 y0 r (7 - k)
      have hnot : ¬ UnderRow x0 y0 r row k (spritePixel x0 y0 r (7 - k)) := by
        rintro ⟨j, hj, -, he⟩
        unfold spritePixel at he
        omega
      have hiff : ∀ p, UnderRow x0 y0 r row (k + 1) p ↔
          UnderRow x0 y0 r row k p ∨ p = spritePixel x0 y0 r (7 - k) := by
        intro p
        constructor
        · rintro ⟨j, hj, h1, h2⟩
          by_cases h : j = k
          · subst h; exact .inr h2
          · exact .inl ⟨j, by omega, h1, h2⟩
        · rintro (⟨j, hj, h1, h2⟩ | h)
          · exact ⟨j, by omega, h1, h2⟩
          · exact ⟨k, by omega, hb, h⟩
      obtain ⟨h1, h2⟩ := ih (by omega) (togglePixel (spritePixel x0 y0 r (7 - k)) pic)
      refine ⟨fun p => ?_, ?_⟩
      · obtain ⟨ha, hn⟩ := h1 p
        simp only [togglePixel, pixel_fbToggle _ hlt] at ha hn ⊢
        rw [hiff]
        by_cases hp : p = spritePixel x0 y0 r (7 - k)
        · subst hp
          exact ⟨fun _ => by rw [hn hnot]; simp, fun h => absurd (.inr rfl) h⟩
        · refine ⟨fun h => ?_, fun h => ?_⟩
          · rw [ha (h.resolve_right hp), if_neg hp]
          · rw [hn (fun h' => h (.inl h')), if_neg hp]
      · rw [h2]
        simp only [togglePixel, pixel_fbToggle _ hlt, Bool.or_eq_true]
        constructor
        · rintro ((h | h) | ⟨p, hp, h⟩)
          · exact .inl h
          · exact .inr ⟨_, (hiff _).2 (.inr rfl), h⟩
          · have hne : p ≠ spritePixel x0 y0 r (7 - k) := by rintro rfl; exact hnot hp
            rw [if_neg hne] at h
            exact .inr ⟨p, (hiff p).2 (.inl hp), h⟩
        · rintro (h | ⟨p, hp, h⟩)
          · exact .inl (.inl h)
          · by_cases he : p = spritePixel x0 y0 r (7 - k)
            · subst he; exact .inl (.inr h)
            · refine .inr ⟨p, ((hiff p).1 hp).resolve_right he, by rw [if_neg he]; exact h⟩
    · rw [if_neg hb]
      have hiff : ∀ p, UnderRow x0 y0 r row (k + 1) p ↔ UnderRow x0 y0 r row k p := by
        intro p
        constructor
        · rintro ⟨j, hj, h1, h2⟩
          have hjk : j ≠ k := by
            rintro rfl
            exact hb h1
          exact ⟨j, by omega, h1, h2⟩
        · rintro ⟨j, hj, h1, h2⟩
          exact ⟨j, by omega, h1, h2⟩
      simpa only [hiff] using ih (by omega) pic

/-- The pixels under the rows `rows` of a sprite, the first of them its row `r`. -/
def UnderRows (x0 y0 r : Nat) (rows : List Byte) (p : Nat) : Prop :=
  ∃ k row, rows[k]? = some row ∧ UnderRow x0 y0 (r + k) row 8 p

theorem underRows_cons (x0 y0 r : Nat) (row : Byte) (rows : List Byte) (p : Nat) :
    UnderRows x0 y0 r (row :: rows) p ↔ UnderRow x0 y0 r row 8 p ∨ UnderRows x0 y0 (r + 1) rows p := by
  constructor
  · rintro ⟨k, row', h1, h2⟩
    cases k with
    | zero => simp only [List.getElem?_cons_zero, Option.some.injEq] at h1; subst h1; exact .inl h2
    | succ k => exact .inr ⟨k, row', by simpa using h1, by rw [show r + 1 + k = r + (k + 1) by omega]; exact h2⟩
  · rintro (h | ⟨k, row', h1, h2⟩)
    · exact ⟨0, row, rfl, h⟩
    · exact ⟨k + 1, row', by simpa using h1, by rw [show r + (k + 1) = r + 1 + k by omega]; exact h2⟩

/-- A sprite of at most 32 rows inverts exactly the pixels under its 1-bits, and reports a collision exactly when one of
them was set (R182). -/
theorem drawRows_spec (x0 y0 : Nat) (rows : List Byte) (r : Nat) (hr : r + rows.length ≤ 32) (pic : Picture) :
    (∀ p, (UnderRows x0 y0 r rows p → pixel (drawRows x0 y0 r rows pic).1 p = !pixel pic.1 p) ∧
      (¬ UnderRows x0 y0 r rows p → pixel (drawRows x0 y0 r rows pic).1 p = pixel pic.1 p)) ∧
    ((drawRows x0 y0 r rows pic).2 = true ↔ pic.2 = true ∨ ∃ p, UnderRows x0 y0 r rows p ∧ pixel pic.1 p = true) := by
  induction rows generalizing r pic with
  | nil => simp [drawRows, UnderRows]
  | cons row rows ih =>
    rw [drawRows]
    simp only [List.length_cons] at hr
    obtain ⟨a1, a2⟩ := drawColumns_spec x0 y0 r row 8 (by omega) pic
    obtain ⟨b1, b2⟩ := ih (r + 1) (by omega) (drawColumns x0 y0 r row 8 pic)
    have hdisj : ∀ p, UnderRow x0 y0 r row 8 p → ¬ UnderRows x0 y0 (r + 1) rows p := by
      rintro p ⟨j, hj, -, rfl⟩ ⟨k, row', hk, j', hj', -, he⟩
      have hkl := (List.getElem?_eq_some_iff.1 hk).1
      have := spritePixel_inj (by omega) (by omega) (by omega) (by omega) he
      omega
    refine ⟨fun p => ?_, ?_⟩
    · rw [underRows_cons]
      refine ⟨fun h => ?_, fun h => ?_⟩
      · rcases h with h | h
        · rw [(b1 p).2 (hdisj p h), (a1 p).1 h]
        · rw [(b1 p).1 h, (a1 p).2 (fun h' => hdisj p h' h)]
      · rw [(b1 p).2 (fun h' => h (.inr h')), (a1 p).2 (fun h' => h (.inl h'))]
    · rw [b2, a2]
      simp only [underRows_cons]
      constructor
      · rintro ((h | ⟨p, hp, h⟩) | ⟨p, hp, h⟩)
        · exact .inl h
        · exact .inr ⟨p, .inl hp, h⟩
        · rw [(a1 p).2 (fun h' => hdisj p h' hp)] at h
          exact .inr ⟨p, .inr hp, h⟩
      · rintro (h | ⟨p, hp | hp, h⟩)
        · exact .inl (.inl h)
        · exact .inl (.inr ⟨p, hp, h⟩)
        · exact .inr ⟨p, hp, by rw [(a1 p).2 (fun h' => hdisj p h' hp)]; exact h⟩

theorem underRows_zero (x0 y0 : Nat) (rows : List Byte) (p : Nat) :
    UnderRows x0 y0 0 rows p ↔ UnderSprite x0 y0 rows p := by
  constructor
  · rintro ⟨k, row, h1, j, hj, h2, rfl⟩
    exact ⟨k, 7 - j, by omega, ⟨row, h1, by rw [show 7 - (7 - j) = j by omega]; exact h2⟩, by
      unfold spritePixel; simp⟩
  · rintro ⟨k, c, hc, ⟨row, h1, h2⟩, rfl⟩
    exact ⟨k, row, h1, 7 - c, by omega, h2, by unfold spritePixel; rw [show 7 - (7 - c) = c by omega]; simp⟩

end Sys2Proof.Machine
end

