-- ==== Sys2Proof/Laws/Frames.lean ====
section
/-!
SUPPORT. Frames: what each shared operation leaves unchanged, as `ChangesOnly`, and how frames compose.
-/

namespace Sys2Proof.Machine

theorem ChangesOnly.refl (ps : List Part) (s : State) : ChangesOnly ps s s :=
  ⟨rfl, fun _ _ => rfl, fun _ => rfl, fun _ => rfl, fun _ => ⟨rfl, rfl⟩, fun _ => rfl, fun _ => rfl, fun _ => rfl,
    fun _ => rfl, fun _ => rfl, fun _ _ => rfl, fun _ => ⟨rfl, rfl⟩⟩

/-- A frame may name more parts than change. -/
theorem ChangesOnly.mono {ps qs : List Part} {s t : State} (h : ChangesOnly ps s t) (hs : ∀ p ∈ ps, p ∈ qs) :
    ChangesOnly qs s t :=
  ⟨h.cfg, fun r hr => h.regs r fun h' => hr (hs _ h'), fun hn => h.pc fun h' => hn (hs _ h'),
    fun hn => h.index fun h' => hn (hs _ h'), fun hn => h.stack fun h' => hn (hs _ h'),
    fun hn => h.dt fun h' => hn (hs _ h'), fun hn => h.st fun h' => hn (hs _ h'),
    fun hn => h.keys fun h' => hn (hs _ h'), fun hn => h.fb fun h' => hn (hs _ h'),
    fun hn => h.latch fun h' => hn (hs _ h'), fun hn => h.mem fun h' => hn (hs _ h'),
    fun hn => h.draws fun h' => hn (hs _ h')⟩

/-- Frames compose: what the one and then the other leave unchanged. -/
theorem ChangesOnly.trans {ps : List Part} {s t u : State} (h : ChangesOnly ps s t) (k : ChangesOnly ps t u) :
    ChangesOnly ps s u :=
  ⟨k.cfg.trans h.cfg, fun r hr => (k.regs r hr).trans (h.regs r hr), fun hn => (k.pc hn).trans (h.pc hn),
    fun hn => (k.index hn).trans (h.index hn),
    fun hn => ⟨(k.stack hn).1.trans (h.stack hn).1, (k.stack hn).2.trans (h.stack hn).2⟩,
    fun hn => (k.dt hn).trans (h.dt hn), fun hn => (k.st hn).trans (h.st hn), fun hn => (k.keys hn).trans (h.keys hn),
    fun hn => (k.fb hn).trans (h.fb hn), fun hn => (k.latch hn).trans (h.latch hn),
    fun hn a => (k.mem hn a).trans (h.mem hn a),
    fun hn => ⟨(k.draws hn).1.trans (h.draws hn).1, (k.draws hn).2.trans (h.draws hn).2⟩⟩

variable (s : State)

theorem changesOnly_setPc (a : Word) : ChangesOnly [.pc] s (s.setPc a) := by
  constructor <;> simp

theorem changesOnly_setIndex (a : Word) : ChangesOnly [.index] s (s.setIndex a) := by
  constructor <;> simp

theorem changesOnly_setReg (x : Reg) (b : Byte) : ChangesOnly [.v x] s (s.setReg x b) := by
  constructor <;> simp +contextual

theorem changesOnly_setStack (k : Vector Word 16) (n : Fin 17) : ChangesOnly [.stack] s (s.setStack k n) := by
  constructor <;> simp

theorem changesOnly_setDt (b : Byte) : ChangesOnly [.dt] s (s.setDt b) := by constructor <;> simp

theorem changesOnly_setSt (b : Byte) : ChangesOnly [.st] s (s.setSt b) := by constructor <;> simp

theorem changesOnly_setKeys (k : Vector Bool 16) : ChangesOnly [.keys] s (s.setKeys k) := by constructor <;> simp

theorem changesOnly_setFb (f : Vector (BitVec 64) 32) : ChangesOnly [.fb] s (s.setFb f) := by constructor <;> simp

theorem changesOnly_setLatch (l : FaultLatch) : ChangesOnly [.latch] s (s.setLatch l) := by constructor <;> simp

theorem changesOnly_setMem (m : Memory) : ChangesOnly [.mem] s (s.setMem m) := by constructor <;> simp

theorem changesOnly_setRnd (b : Byte) (n : Nat) : ChangesOnly [.draws] s (s.setRnd b n) := by constructor <;> simp

theorem changesOnly_skipIf (c : Bool) : ChangesOnly [.pc] s (s.skipIf c) := by
  rw [State.skipIf_eq]; exact changesOnly_setPc s _

theorem changesOnly_setRegFlag (x : Reg) (r f : Byte) : ChangesOnly [.v x, .v VF] s (s.setRegFlag x r f) :=
  ((changesOnly_setReg s x r).mono (by simp)).trans ((changesOnly_setReg _ VF f).mono (by simp))

theorem changesOnly_writeBytes {s t : State} {a : Nat} {bs : List Byte} (h : s.writeBytes a bs = .ok t) :
    ChangesOnly [.mem] s t := by
  obtain ⟨⟨m, rfl⟩, -⟩ := State.writeBytes_ok h
  exact changesOnly_setMem s m

/-- Taking a fault changes PC and the latch alone (R222). -/
theorem changesOnly_takeFault (f : Fault) (a w : Word) : ChangesOnly [.pc, .latch] s (s.takeFault f a w) :=
  ((changesOnly_setPc s a).mono (by simp)).trans ((changesOnly_setLatch _ _).mono (by simp))

/-- The record a fault leaves (R222). -/
theorem faultTaken_takeFault (f : Fault) (a w : Word) {cause : BitVec 3} {info : Nat} (hc : f.code = cause)
    (hi : f.info = BitVec.ofNat 17 info) : FaultTaken cause a w info s (s.takeFault f a w) :=
  ⟨rfl, hc, rfl, rfl, hi, rfl, changesOnly_takeFault s f a w⟩

/-- A claim's "the fetch finds this word" is the fetch answering it. -/
theorem fetchesWord_iff {s : State} {w : Word} : FetchesWord s w ↔ s.fetch = .ok w := by
  constructor
  · rintro ⟨a, b, ha, hb, rfl⟩
    exact State.fetch_eq ha hb
  · exact State.fetch_ok

end Sys2Proof.Machine
end

