-- ==== Sys2Proof/Laws/Step.lean ====
section
/-!
SUPPORT. What one step can do, said once: later proofs about runs cite `step_cases`.
-/

namespace Sys2Proof.Machine

/-- The four things a step can do (R95): nothing while halted, a fault at fetch, a fault at decode, or the decoded
instruction on the state after the fetch advance. -/
theorem step_cases (s : State) :
    (s.latch.halted = true ∧ step s = .next s) ∨
    (s.latch.halted = false ∧ ∃ f, s.fetch = .error f ∧ step s = .next (s.takeFault f s.pc 0)) ∨
    (s.latch.halted = false ∧ ∃ w, s.fetch = .ok w ∧ decode w = none ∧
      step s = .next (s.takeFault .illegalInstruction s.pc w)) ∨
    (s.latch.halted = false ∧ ∃ w i, s.fetch = .ok w ∧ decode w = some i ∧ step s = exec i s.advance) := by
  cases hh : s.latch.halted with
  | true => exact .inl ⟨rfl, by simp [step, hh]⟩
  | false =>
    right
    cases hf : s.fetch with
    | error f => exact .inl ⟨rfl, f, rfl, by simp [step, hh, hf]⟩
    | ok w =>
      right
      cases hd : decode w with
      | none => exact .inl ⟨rfl, w, rfl, hd, by simp [step, hh, hf, hd]⟩
      | some i => exact .inr ⟨rfl, w, i, rfl, hd, by simp [step, hh, hf, hd]⟩

theorem step_halted {s : State} (h : s.latch.halted = true) : step s = .next s := by simp [step, h]

theorem step_decoded {s : State} {w : Word} {i : Instr} (h : s.latch.halted = false) (hf : s.fetch = .ok w)
    (hd : decode w = some i) : step s = exec i s.advance := by simp [step, h, hf, hd]

end Sys2Proof.Machine
end

