-- ==== Sys2Proof/Laws/Exec.lean ====
section
/-!
SUPPORT. What one instruction can do, said once: it completes and writes only its own parts of the state, or it raises
one of its faults. Later proofs over all instructions cite `exec_cases` and `exec_memory`.
-/

namespace Sys2Proof.Machine

/-- The parts of the state an instruction writes when it completes. -/
def partsWritten : Instr → List Part
  | .nop => []
  | .cls => [.fb]
  | .ret | .call _ => [.pc, .stack]
  | .jp _ | .jpV0 _ | .seByte _ _ | .sneByte _ _ | .seReg _ _ | .sneReg _ _ | .skp _ | .sknp _ => [.pc]
  | .ldByte x _ | .addByte x _ | .ldReg x _ | .orReg x _ | .andReg x _ | .xorReg x _ | .ldVxDt x => [.v x]
  | .addReg x _ | .subReg x _ | .shr x _ | .subnReg x _ | .shl x _ => [.v x, .v VF]
  | .ldI _ | .addI _ | .ldF _ => [.index]
  | .rnd x _ => [.v x, .draws]
  | .drw _ _ _ => [.fb, .v VF]
  | .ldVxK x => [.v x, .pc]
  | .ldDtVx _ => [.dt]
  | .ldStVx _ => [.st]
  | .ldB _ | .stRegs _ => [.mem]
  | .ldRegs _ => allRegs

/-- When an instruction raises a fault: R220's conditions. -/
def RaisedBy (i : Instr) (s : State) (f : Fault) : Prop :=
  (f = .stackOverflow ∧ s.sp = 16 ∧ ∃ nnn, i = .call nnn) ∨ (f = .stackUnderflow ∧ s.sp = 0 ∧ i = .ret) ∨
  (∃ a, f = .memoryBounds a ∧ s.cfg.oob = .fault ∧ 4096 ≤ a ∧ a < 2 ^ 17) ∨
  (∃ a, f = .fontWrite a ∧ s.cfg.fontWrite = .fault ∧ a < 80) ∨
  ∃ v, f = .keyIndex v ∧ s.cfg.keyIndex = .fault ∧ 16 ≤ v.toNat

theorem mem_allRegs (r : Reg) : Part.v r ∈ allRegs := by
  simp only [allRegs, List.mem_map, List.mem_range]
  exact ⟨r.toNat, r.isLt, by simp⟩

theorem changesOnly_setV (s : State) (v : Vector Byte 16) : ChangesOnly allRegs s (s.setV v) := by
  constructor
  case regs => exact fun r hr => absurd (mem_allRegs r) hr
  all_goals first | rfl | (intros; rfl) | (intros; exact ⟨rfl, rfl⟩)

theorem readBytes_raises {i : Instr} {s : State} {n : Nat} {f : Fault} (hn : n ≤ 16)
    (h : s.readBytes (s.effAddr 0) n = .error f) : RaisedBy i s f := by
  obtain ⟨k, hk, he, -⟩ := State.readBytes_error h
  obtain ⟨rfl, h1, h2⟩ := memAddr_error he
  have := s.index.isLt
  exact .inr (.inr (.inl ⟨_, rfl, h2, h1, by simp only [State.effAddr]; omega⟩))

theorem writeBytes_raises {i : Instr} {s : State} {bs : List Byte} {f : Fault} (hn : bs.length ≤ 16)
    (h : s.writeBytes (s.effAddr 0) bs = .error f) : RaisedBy i s f := by
  obtain ⟨k, hk, he, -⟩ := State.writeBytes_error h
  have := s.index.isLt
  rcases storeAddr_error he with ⟨rfl, h1, h2⟩ | ⟨b, rfl, hb, -, hw⟩
  · exact .inr (.inr (.inl ⟨_, rfl, h2, h1, by simp only [State.effAddr]; omega⟩))
  · exact .inr (.inr (.inr (.inl ⟨_, rfl, hw, hb⟩)))

theorem keyIndex_raises {i : Instr} {s : State} {vx : Byte} {f : Fault} (h : keyIndex s.cfg.keyIndex vx = .error f) :
    RaisedBy i s f := by
  obtain ⟨rfl, h1, h2⟩ := keyIndex_error h
  exact .inr (.inr (.inr (.inr ⟨_, rfl, h2, h1⟩)))

/-- Everything one instruction can do, as a frame: it completes with only its own parts written, or it raises a fault of
R220 and leaves the state of R222. -/
theorem exec_cases {i : Instr} {s t : State} (h : exec i s = .next t) :
    ChangesOnly (partsWritten i) s t ∨ ∃ f, t = s.raise i f ∧ CanFault i ∧ RaisedBy i s f := by
  cases i <;> simp only [exec] at h
  case ret =>
    replace h := State.finish_next.1 h
    rcases h with h | ⟨f, h, rfl⟩ <;> split at h <;> cases h
    · rename_i h'
      obtain ⟨-, -, rfl⟩ := State.pop_ok h'
      exact .inl (((changesOnly_setStack s _ _).mono (by simp [partsWritten])).trans
        ((changesOnly_setPc _ _).mono (by simp [partsWritten])))
    · rename_i h'
      obtain ⟨rfl, hs⟩ := State.pop_error h'
      exact .inr ⟨_, rfl, trivial, .inr (.inl ⟨rfl, hs, rfl⟩)⟩
  case call nnn =>
    replace h := State.finish_next.1 h
    rcases h with h | ⟨f, h, rfl⟩ <;> split at h <;> cases h
    · rename_i h'
      obtain ⟨-, rfl⟩ := State.push_ok h'
      exact .inl (((changesOnly_setStack s _ _).mono (by simp [partsWritten])).trans
        ((changesOnly_setPc _ _).mono (by simp [partsWritten])))
    · rename_i h'
      obtain ⟨rfl, hs⟩ := State.push_error h'
      exact .inr ⟨_, rfl, trivial, .inl ⟨rfl, hs, _, rfl⟩⟩
  case drw =>
    replace h := State.finish_next.1 h
    rcases h with h | ⟨f, h, rfl⟩ <;> split at h <;> cases h
    · exact .inl (((changesOnly_setFb s _).mono (by simp [partsWritten])).trans
        ((changesOnly_setReg _ _ _).mono (by simp [partsWritten])))
    · rename_i h'
      exact .inr ⟨_, rfl, trivial, readBytes_raises (by omega) h'⟩
  case skp | sknp =>
    replace h := State.finish_next.1 h
    rcases h with h | ⟨f, h, rfl⟩ <;> split at h <;> cases h
    · exact .inl (changesOnly_skipIf s _)
    · rename_i h'
      exact .inr ⟨_, rfl, trivial, keyIndex_raises h'⟩
  case ldRegs =>
    replace h := State.finish_next.1 h
    rcases h with h | ⟨f, h, rfl⟩ <;> split at h <;> cases h
    · exact .inl (changesOnly_setV s _)
    · rename_i h'
      exact .inr ⟨_, rfl, trivial, readBytes_raises (by omega) h'⟩
  case ldB =>
    replace h := State.finish_next.1 h
    rcases h with h | ⟨f, h, rfl⟩
    · exact .inl (changesOnly_writeBytes h)
    · exact .inr ⟨_, rfl, trivial, writeBytes_raises (by simp [bcdDigits]) h⟩
  case stRegs =>
    replace h := State.finish_next.1 h
    rcases h with h | ⟨f, h, rfl⟩
    · exact .inl (changesOnly_writeBytes h)
    · exact .inr ⟨_, rfl, trivial, writeBytes_raises (by simp [State.regsUpTo]; omega) h⟩
  case ldVxK =>
    unfold execLdVxK at h
    split at h <;> cases h
    · exact .inl ((changesOnly_setPc s _).mono (by simp [partsWritten]))
    · exact .inl ((changesOnly_setReg s _ _).mono (by simp [partsWritten]))
  case rnd =>
    injection h with h; subst h
    exact .inl (((changesOnly_setReg s _ _).mono (by simp [partsWritten])).trans
      ((changesOnly_setRnd _ _ _).mono (by simp [partsWritten])))
  case seByte | sneByte | seReg | sneReg => injection h with h; subst h; exact .inl (changesOnly_skipIf s _)
  all_goals
    injection h with h; subst h
    first
      | exact .inl (changesOnly_setReg s _ _)
      | exact .inl (changesOnly_setRegFlag s _ _ _)
      | exact .inl (changesOnly_setPc s _)
      | exact .inl (changesOnly_setIndex s _)
      | exact .inl (changesOnly_setFb s _)
      | exact .inl (changesOnly_setDt s _)
      | exact .inl (changesOnly_setSt s _)
      | exact .inl (ChangesOnly.refl [] s)

theorem exec_cfg {i : Instr} {s t : State} (h : exec i s = .next t) : t.cfg = s.cfg := by
  rcases exec_cases h with h | ⟨f, rfl, -⟩
  · exact h.cfg
  · rfl

/-- What an instruction does to memory as data: the two store instructions write bytes at I, I+1, …; every other leaves
the list itself. -/
theorem exec_memory {i : Instr} {s t : State} (h : exec i s = .next t) :
    t.mem = s.mem ∨
      ((∃ x, i = .ldB x) ∨ ∃ x, i = .stRegs x) ∧ ∃ bs, s.writeBytes (s.effAddr 0) bs = .ok t := by
  cases i <;> simp only [exec] at h
  case ldB x | stRegs x =>
    replace h := State.finish_next.1 h
    rcases h with h | ⟨f, h, rfl⟩
    · exact .inr ⟨by simp, _, h⟩
    · exact .inl rfl
  case ret =>
    replace h := State.finish_next.1 h
    rcases h with h | ⟨f, h, rfl⟩
    · split at h <;> cases h
      rename_i h'
      obtain ⟨-, -, rfl⟩ := State.pop_ok h'
      exact .inl rfl
    · exact .inl rfl
  case call =>
    replace h := State.finish_next.1 h
    rcases h with h | ⟨f, h, rfl⟩
    · split at h <;> cases h
      rename_i h'
      obtain ⟨-, rfl⟩ := State.push_ok h'
      exact .inl rfl
    · exact .inl rfl
  case skp | sknp =>
    replace h := State.finish_next.1 h
    rcases h with h | ⟨f, h, rfl⟩
    · split at h <;> cases h
      rw [State.skipIf_eq]; exact .inl rfl
    · exact .inl rfl
  case drw | ldRegs =>
    replace h := State.finish_next.1 h
    rcases h with h | ⟨f, h, rfl⟩
    · split at h <;> cases h
      exact .inl rfl
    · exact .inl rfl
  case ldVxK =>
    unfold execLdVxK at h
    split at h <;> cases h <;> exact .inl rfl
  case seByte | sneByte | seReg | sneReg => injection h with h; subst h; rw [State.skipIf_eq]; exact .inl rfl
  all_goals injection h with h; subst h; exact .inl rfl

/-- A store sequence fails with the fault of its first failing address. -/
theorem writeBytes_firstFault {s : State} {bs : List Byte} {k : Nat} {f : Fault} (hk : k < bs.length)
    (hj : ∀ j, j < k → ∃ c, storeAddr s.cfg (s.index.toNat + j) = .ok c)
    (he : storeAddr s.cfg (s.index.toNat + k) = .error f) : s.writeBytes (s.effAddr 0) bs = .error f := by
  cases hr : s.writeBytes (s.effAddr 0) bs with
  | ok t =>
    obtain ⟨c, hc⟩ := (State.writeBytes_ok hr).2.2.1 k hk
    cases hc.symm.trans he
  | error g =>
    obtain ⟨m, -, hme, hmj⟩ := State.writeBytes_error hr
    rcases Nat.lt_trichotomy m k with h | h | h
    · obtain ⟨c, hc⟩ := hj m h
      cases hc.symm.trans hme
    · subst h
      cases hme.symm.trans he
      rfl
    · obtain ⟨c, hc⟩ := hmj k h
      cases hc.symm.trans he

/-- A read sequence that runs past memory under OOB_POLICY = Fault fails at the first address of 4096 or more. -/
theorem readBytes_firstFault {s : State} {n : Nat} (ho : s.cfg.oob = .fault) (hn : 0 < n)
    (h : 4096 < s.index.toNat + n) :
    s.readBytes (s.effAddr 0) n = .error (.memoryBounds (max s.index.toNat 4096)) := by
  cases hr : s.readBytes (s.effAddr 0) n with
  | ok t =>
    obtain ⟨c, hc, -⟩ := (State.readBytes_ok hr).2 (n - 1) (by omega)
    have := (memAddr_ok hc).2.2
    rw [ho] at this
    simp [State.effAddr] at this
    omega
  | error g =>
    obtain ⟨m, hm, hme, hmj⟩ := State.readBytes_error hr
    obtain ⟨rfl, h1, -⟩ := memAddr_error hme
    congr 2
    simp only [State.effAddr] at h1 ⊢
    rcases Nat.eq_zero_or_pos m with h0 | h0
    · omega
    · obtain ⟨c, hc⟩ := hmj (m - 1) (by omega)
      have := (memAddr_ok hc).2.2
      rw [ho] at this
      simp [State.effAddr] at this
      omega

/-- Reading memory does not look at the random draws. -/
theorem readBytes_setRnd (s : State) (r : Byte) (d a n : Nat) : (s.setRnd r d).readBytes a n = s.readBytes a n := by
  induction n generalizing a with
  | zero => rfl
  | succ n ih =>
    simp only [State.readBytes, ih]
    rfl

/-- Storing to memory does not look at the random draws. -/
theorem writeBytes_setRnd (bs : List Byte) (s : State) (r : Byte) (d a : Nat) :
    (s.setRnd r d).writeBytes a bs = match s.writeBytes a bs with
      | .ok t => .ok (t.setRnd r d)
      | .error f => .error f := by
  induction bs generalizing s a with
  | nil => rfl
  | cons b bs ih =>
    have hm : (s.setRnd r d).memWrite a b = match s.memWrite a b with
      | .ok t => .ok (t.setRnd r d)
      | .error f => .error f := by
      simp only [State.memWrite, State.setRnd_cfg]
      cases storeAddr s.cfg a <;> rfl
    simp only [State.writeBytes, hm]
    cases s.memWrite a b with
    | error f => rfl
    | ok t => exact ih t (a + 1)

end Sys2Proof.Machine
end

