-- ==== Sys2Proof/Laws/Fields.lean ====
section
/-!
SUPPORT. A word and its fields as numbers, so that a fact about an encoding is linear arithmetic; and that each operand of
an encoded word comes back.
-/

namespace Sys2Proof

theorem append_toNat {n m : Nat} (a : BitVec n) (b : BitVec m) : (a ++ b).toNat = a.toNat * 2 ^ m + b.toNat := by
  rw [BitVec.toNat_append, ← Nat.shiftLeft_add_eq_or_of_lt b.isLt, Nat.shiftLeft_eq]

theorem encodeA_toNat (d : Nibble) (nnn : Imm12) : (encodeA d nnn).toNat = d.toNat * 4096 + nnn.toNat :=
  append_toNat d nnn

theorem encodeXK_toNat (d : Nibble) (x : Reg) (nn : Byte) :
    (encodeXK d x nn).toNat = (d.toNat * 16 + x.toNat) * 256 + nn.toNat :=
  (append_toNat (d ++ x) nn).trans (by simp only [append_toNat]; norm_num)

theorem encodeXYN_toNat (d : Nibble) (x y : Reg) (n : Nibble) :
    (encodeXYN d x y n).toNat = ((d.toNat * 16 + x.toNat) * 16 + y.toNat) * 16 + n.toNat :=
  (append_toNat (d ++ x ++ y) n).trans (by simp only [append_toNat]; norm_num)

theorem wordOfBytes_toNat (hi lo : Byte) : (wordOfBytes hi lo).toNat = hi.toNat * 256 + lo.toNat :=
  append_toNat hi lo

theorem fieldD1_toNat (w : Word) : (fieldD1 w).toNat = w.toNat / 4096 := by
  simp only [fieldD1, BitVec.extractLsb'_toNat, Nat.shiftRight_eq_div_pow]
  omega

theorem fieldX_toNat (w : Word) : (fieldX w).toNat = w.toNat / 256 % 16 := by
  simp [fieldX, BitVec.extractLsb'_toNat, Nat.shiftRight_eq_div_pow]

theorem fieldY_toNat (w : Word) : (fieldY w).toNat = w.toNat / 16 % 16 := by
  simp [fieldY, BitVec.extractLsb'_toNat, Nat.shiftRight_eq_div_pow]

theorem fieldN_toNat (w : Word) : (fieldN w).toNat = w.toNat % 16 := by
  simp [fieldN, BitVec.extractLsb'_toNat]

theorem fieldNN_toNat (w : Word) : (fieldNN w).toNat = w.toNat % 256 := by
  simp [fieldNN, BitVec.extractLsb'_toNat]

theorem fieldNNN_toNat (w : Word) : (fieldNNN w).toNat = w.toNat % 4096 := by
  simp [fieldNNN, BitVec.extractLsb'_toNat]

theorem highByte_toNat (w : Word) : (highByte w).toNat = w.toNat / 256 := by
  simp only [highByte, BitVec.extractLsb'_toNat, Nat.shiftRight_eq_div_pow]
  omega

theorem lowByte_toNat (w : Word) : (lowByte w).toNat = w.toNat % 256 := by
  simp [lowByte, BitVec.extractLsb'_toNat]

/-- The two bytes of a word make it again (R65). -/
theorem wordOfBytes_bytes (w : Word) : wordOfBytes (highByte w) (lowByte w) = w := by
  apply BitVec.eq_of_toNat_eq
  rw [wordOfBytes_toNat, highByte_toNat, lowByte_toNat]
  omega

@[simp] theorem fieldD1_encodeA (d : Nibble) (nnn : Imm12) : fieldD1 (encodeA d nnn) = d := by
  apply BitVec.eq_of_toNat_eq
  rw [fieldD1_toNat, encodeA_toNat]
  omega

@[simp] theorem fieldNNN_encodeA (d : Nibble) (nnn : Imm12) : fieldNNN (encodeA d nnn) = nnn := by
  apply BitVec.eq_of_toNat_eq
  rw [fieldNNN_toNat, encodeA_toNat]
  omega

@[simp] theorem fieldD1_encodeXK (d : Nibble) (x : Reg) (nn : Byte) : fieldD1 (encodeXK d x nn) = d := by
  apply BitVec.eq_of_toNat_eq
  rw [fieldD1_toNat, encodeXK_toNat]
  omega

@[simp] theorem fieldX_encodeXK (d : Nibble) (x : Reg) (nn : Byte) : fieldX (encodeXK d x nn) = x := by
  apply BitVec.eq_of_toNat_eq
  rw [fieldX_toNat, encodeXK_toNat]
  omega

@[simp] theorem fieldNN_encodeXK (d : Nibble) (x : Reg) (nn : Byte) : fieldNN (encodeXK d x nn) = nn := by
  apply BitVec.eq_of_toNat_eq
  rw [fieldNN_toNat, encodeXK_toNat]
  omega

@[simp] theorem fieldD1_encodeXYN (d : Nibble) (x y : Reg) (n : Nibble) : fieldD1 (encodeXYN d x y n) = d := by
  apply BitVec.eq_of_toNat_eq
  rw [fieldD1_toNat, encodeXYN_toNat]
  omega

@[simp] theorem fieldX_encodeXYN (d : Nibble) (x y : Reg) (n : Nibble) : fieldX (encodeXYN d x y n) = x := by
  apply BitVec.eq_of_toNat_eq
  rw [fieldX_toNat, encodeXYN_toNat]
  omega

@[simp] theorem fieldY_encodeXYN (d : Nibble) (x y : Reg) (n : Nibble) : fieldY (encodeXYN d x y n) = y := by
  apply BitVec.eq_of_toNat_eq
  rw [fieldY_toNat, encodeXYN_toNat]
  omega

@[simp] theorem fieldN_encodeXYN (d : Nibble) (x y : Reg) (n : Nibble) : fieldN (encodeXYN d x y n) = n := by
  apply BitVec.eq_of_toNat_eq
  rw [fieldN_toNat, encodeXYN_toNat]
  omega

/-- A word is its major opcode and NNN. -/
theorem encodeA_fields (w : Word) : encodeA (fieldD1 w) (fieldNNN w) = w := by
  apply BitVec.eq_of_toNat_eq
  rw [encodeA_toNat, fieldD1_toNat, fieldNNN_toNat]
  omega

/-- A word is its major opcode, X and NN. -/
theorem encodeXK_fields (w : Word) : encodeXK (fieldD1 w) (fieldX w) (fieldNN w) = w := by
  apply BitVec.eq_of_toNat_eq
  rw [encodeXK_toNat, fieldD1_toNat, fieldX_toNat, fieldNN_toNat]
  omega

/-- A word is its four nibbles (R91). -/
theorem encodeXYN_fields (w : Word) : encodeXYN (fieldD1 w) (fieldX w) (fieldY w) (fieldN w) = w := by
  apply BitVec.eq_of_toNat_eq
  rw [encodeXYN_toNat, fieldD1_toNat, fieldX_toNat, fieldY_toNat, fieldN_toNat]
  omega

end Sys2Proof
end

