-- ==== Sys2Proof/Laws/PerInstr.lean ====
section
/-!
SUPPORT. The per-instruction family EncodeLegal: the word of an instruction is one that R97's table of illegal words does
not name.
-/

namespace Sys2Proof.Laws.EncodeLegal

/-- The instruction's word is legal by R97. -/
def Statement (i : Sys2Proof.Instr) : Prop := legalWord (encode i) = true

theorem legal_of_d1 {w : Word} {d : Nibble} (h : fieldD1 w = d)
    (hd : d ≠ 0x0 ∧ d ≠ 0x5 ∧ d ≠ 0x8 ∧ d ≠ 0x9 ∧ d ≠ 0xE ∧ d ≠ 0xF) : legalWord w = true := by
  subst h
  obtain ⟨h0, h5, h8, h9, hE, hF⟩ := hd
  exact (if_neg h0).trans ((if_neg h5).trans ((if_neg h8).trans ((if_neg h9).trans ((if_neg hE).trans (if_neg hF)))))

theorem legal_of_xyn {w : Word} {d n : Nibble} (h : fieldD1 w = d) (hn : fieldN w = n)
    (hd : (d = 0x5 ∨ d = 0x9) ∧ n = 0 ∨ d = 0x8 ∧ legalD8 n = true) : legalWord w = true := by
  simp only [fieldD1] at h
  simp only [fieldN] at hn
  rcases hd with ⟨rfl | rfl, rfl⟩ | ⟨rfl, h8⟩ <;> simp_all [legalWord, legalXY0]

theorem legal_of_xk {w : Word} {d : Nibble} {kk : Byte} (h : fieldD1 w = d) (hk : fieldNN w = kk)
    (hd : d = 0xE ∧ legalDE kk = true ∨ d = 0xF ∧ legalDF kk = true) : legalWord w = true := by
  simp only [fieldD1] at h
  simp only [fieldNN] at hk
  rcases hd with ⟨rfl, h8⟩ | ⟨rfl, h8⟩ <;> simp_all [legalWord]

theorem nop : Statement Sys2Proof.Instr.nop := (rfl : legalWord _ = true)

theorem cls : Statement Sys2Proof.Instr.cls := (rfl : legalWord _ = true)

theorem ret : Statement Sys2Proof.Instr.ret := (rfl : legalWord _ = true)

theorem jp (nnn : Imm12) : Statement (Sys2Proof.Instr.jp nnn) :=
  legal_of_d1 (fieldD1_encodeA _ _) (by decide)

theorem call (nnn : Imm12) : Statement (Sys2Proof.Instr.call nnn) :=
  legal_of_d1 (fieldD1_encodeA _ _) (by decide)

theorem seByte (x : Reg) (nn : Byte) : Statement (Sys2Proof.Instr.seByte x nn) :=
  legal_of_d1 (fieldD1_encodeXK _ _ _) (by decide)

theorem sneByte (x : Reg) (nn : Byte) : Statement (Sys2Proof.Instr.sneByte x nn) :=
  legal_of_d1 (fieldD1_encodeXK _ _ _) (by decide)

theorem seReg (x y : Reg) : Statement (Sys2Proof.Instr.seReg x y) :=
  legal_of_xyn (fieldD1_encodeXYN _ _ _ _) (fieldN_encodeXYN _ _ _ _) (by decide)

theorem ldByte (x : Reg) (nn : Byte) : Statement (Sys2Proof.Instr.ldByte x nn) :=
  legal_of_d1 (fieldD1_encodeXK _ _ _) (by decide)

theorem addByte (x : Reg) (nn : Byte) : Statement (Sys2Proof.Instr.addByte x nn) :=
  legal_of_d1 (fieldD1_encodeXK _ _ _) (by decide)

theorem ldReg (x y : Reg) : Statement (Sys2Proof.Instr.ldReg x y) :=
  legal_of_xyn (fieldD1_encodeXYN _ _ _ _) (fieldN_encodeXYN _ _ _ _) (by decide)

theorem orReg (x y : Reg) : Statement (Sys2Proof.Instr.orReg x y) :=
  legal_of_xyn (fieldD1_encodeXYN _ _ _ _) (fieldN_encodeXYN _ _ _ _) (by decide)

theorem andReg (x y : Reg) : Statement (Sys2Proof.Instr.andReg x y) :=
  legal_of_xyn (fieldD1_encodeXYN _ _ _ _) (fieldN_encodeXYN _ _ _ _) (by decide)

theorem xorReg (x y : Reg) : Statement (Sys2Proof.Instr.xorReg x y) :=
  legal_of_xyn (fieldD1_encodeXYN _ _ _ _) (fieldN_encodeXYN _ _ _ _) (by decide)

theorem addReg (x y : Reg) : Statement (Sys2Proof.Instr.addReg x y) :=
  legal_of_xyn (fieldD1_encodeXYN _ _ _ _) (fieldN_encodeXYN _ _ _ _) (by decide)

theorem subReg (x y : Reg) : Statement (Sys2Proof.Instr.subReg x y) :=
  legal_of_xyn (fieldD1_encodeXYN _ _ _ _) (fieldN_encodeXYN _ _ _ _) (by decide)

theorem shr (x y : Reg) : Statement (Sys2Proof.Instr.shr x y) :=
  legal_of_xyn (fieldD1_encodeXYN _ _ _ _) (fieldN_encodeXYN _ _ _ _) (by decide)

theorem subnReg (x y : Reg) : Statement (Sys2Proof.Instr.subnReg x y) :=
  legal_of_xyn (fieldD1_encodeXYN _ _ _ _) (fieldN_encodeXYN _ _ _ _) (by decide)

theorem shl (x y : Reg) : Statement (Sys2Proof.Instr.shl x y) :=
  legal_of_xyn (fieldD1_encodeXYN _ _ _ _) (fieldN_encodeXYN _ _ _ _) (by decide)

theorem sneReg (x y : Reg) : Statement (Sys2Proof.Instr.sneReg x y) :=
  legal_of_xyn (fieldD1_encodeXYN _ _ _ _) (fieldN_encodeXYN _ _ _ _) (by decide)

theorem ldI (nnn : Imm12) : Statement (Sys2Proof.Instr.ldI nnn) :=
  legal_of_d1 (fieldD1_encodeA _ _) (by decide)

theorem jpV0 (nnn : Imm12) : Statement (Sys2Proof.Instr.jpV0 nnn) :=
  legal_of_d1 (fieldD1_encodeA _ _) (by decide)

theorem rnd (x : Reg) (nn : Byte) : Statement (Sys2Proof.Instr.rnd x nn) :=
  legal_of_d1 (fieldD1_encodeXK _ _ _) (by decide)

theorem drw (x y : Reg) (n : Nibble) : Statement (Sys2Proof.Instr.drw x y n) :=
  legal_of_d1 (fieldD1_encodeXYN _ _ _ _) (by decide)

theorem skp (x : Reg) : Statement (Sys2Proof.Instr.skp x) :=
  legal_of_xk (fieldD1_encodeXK _ _ _) (fieldNN_encodeXK _ _ _) (by decide)

theorem sknp (x : Reg) : Statement (Sys2Proof.Instr.sknp x) :=
  legal_of_xk (fieldD1_encodeXK _ _ _) (fieldNN_encodeXK _ _ _) (by decide)

theorem ldVxDt (x : Reg) : Statement (Sys2Proof.Instr.ldVxDt x) :=
  legal_of_xk (fieldD1_encodeXK _ _ _) (fieldNN_encodeXK _ _ _) (by decide)

theorem ldVxK (x : Reg) : Statement (Sys2Proof.Instr.ldVxK x) :=
  legal_of_xk (fieldD1_encodeXK _ _ _) (fieldNN_encodeXK _ _ _) (by decide)

theorem ldDtVx (x : Reg) : Statement (Sys2Proof.Instr.ldDtVx x) :=
  legal_of_xk (fieldD1_encodeXK _ _ _) (fieldNN_encodeXK _ _ _) (by decide)

theorem ldStVx (x : Reg) : Statement (Sys2Proof.Instr.ldStVx x) :=
  legal_of_xk (fieldD1_encodeXK _ _ _) (fieldNN_encodeXK _ _ _) (by decide)

theorem addI (x : Reg) : Statement (Sys2Proof.Instr.addI x) :=
  legal_of_xk (fieldD1_encodeXK _ _ _) (fieldNN_encodeXK _ _ _) (by decide)

theorem ldF (x : Reg) : Statement (Sys2Proof.Instr.ldF x) :=
  legal_of_xk (fieldD1_encodeXK _ _ _) (fieldNN_encodeXK _ _ _) (by decide)

theorem ldB (x : Reg) : Statement (Sys2Proof.Instr.ldB x) :=
  legal_of_xk (fieldD1_encodeXK _ _ _) (fieldNN_encodeXK _ _ _) (by decide)

theorem stRegs (x : Reg) : Statement (Sys2Proof.Instr.stRegs x) :=
  legal_of_xk (fieldD1_encodeXK _ _ _) (fieldNN_encodeXK _ _ _) (by decide)

theorem ldRegs (x : Reg) : Statement (Sys2Proof.Instr.ldRegs x) :=
  legal_of_xk (fieldD1_encodeXK _ _ _) (fieldNN_encodeXK _ _ _) (by decide)

end Sys2Proof.Laws.EncodeLegal
end

