-- ==== Sys2Proof/Tests/Slice0.lean ====
section
/-!
SUPPORT. Tests. Expected values come from the spec: the encodings of R94, the tables R97 and R99, and the vectors of
spec/95_test_vectors.md, whose ids (W, CF, A, M, DS, K, X, Y) stand beside each test. The second half gives each statement
with hypotheses its witness.
-/

namespace Sys2Proof.Tests
open Sys2Proof Sys2Proof.Machine

/-- The reset state with a word where the first STEP fetches it. -/
def start (w : Word) : State := State.reset.placeWord w

/-- The state after one STEP. -/
def after (s : State) : State := match step s with
  | .next t => t
  | .fault _ => s
  | .refused _ => s

/-- A byte put into memory, as LOAD would. -/
def poke (s : State) (a : Nat) (b : Byte) : State := s.setMem (s.mem.write s.cfg.fontRom a b)

/-- A state with `n` entries on its stack, all `a`. -/
def stacked (s : State) (n : Fin 17) (a : Word) : State := s.setStack (Vector.replicate 16 a) n

/-- The same machine with every policy at its other value (R7). -/
def lenient (s : State) : State :=
  { s with cfg := { s.cfg with oob := .wrap, fontWrite := .write, keyIndex := .lowNibble } }

/-- What a fault leaves: cause, FAULT_PC, FAULT_WORD, FAULT_ADDR, and PC (R222). -/
def faultRecord (s : State) : Bool × BitVec 3 × Word × Word × BitVec 17 × Word :=
  (s.latch.halted, s.latch.cause, s.latch.pc, s.latch.word, s.latch.addr, s.pc)

/-! ### Smoke: an ill-formed word for each check of WellFormed -/

theorem test_legalD0_refuses : legalD0 0x0123 = false ∧ legalWord 0x00E1 = false ∧ legalWord 0x0FFF = false := by decide
theorem test_legalXY0_refuses : legalXY0 0x1 = false ∧ legalWord 0x5121 = false ∧ legalWord 0x9011 = false := by decide
theorem test_legalD8_refuses : legalD8 0x8 = false ∧ legalWord 0x8128 = false ∧ legalWord 0x800F = false := by decide
theorem test_legalDE_refuses : legalDE 0x9F = false ∧ legalWord 0xE0A0 = false ∧ legalWord 0xE000 = false := by decide
theorem test_legalDF_refuses : legalDF 0xFF = false ∧ legalWord 0xF008 = false ∧ legalWord 0xF066 = false := by decide
theorem test_legalWord_accepts : legalWord 0xF029 = true ∧ legalWord 0xF065 = true ∧ legalWord 0x800E = true ∧
    legalWord 0xE0A1 = true ∧ legalWord 0xD120 = true := by decide

/-! ### Decoding: a word written out from R94's pattern for every row -/

theorem test_decode_rows_1_to_8 : decode 0x0000 = some .nop ∧ decode 0x00E0 = some .cls ∧ decode 0x00EE = some .ret ∧
    decode 0x1234 = some (.jp 0x234) ∧ decode 0x2ABC = some (.call 0xABC) ∧ decode 0x3A7F = some (.seByte 0xA 0x7F) ∧
    decode 0x4B80 = some (.sneByte 0xB 0x80) ∧ decode 0x5CD0 = some (.seReg 0xC 0xD) := by decide
theorem test_decode_rows_9_to_14 : decode 0x6A2B = some (.ldByte 0xA 0x2B) ∧ decode 0x7101 = some (.addByte 1 1) ∧
    decode 0x8120 = some (.ldReg 1 2) ∧ decode 0x8341 = some (.orReg 3 4) ∧ decode 0x8562 = some (.andReg 5 6) ∧
    decode 0x8783 = some (.xorReg 7 8) := by decide
theorem test_decode_rows_15_to_20 : decode 0x89A4 = some (.addReg 9 0xA) ∧ decode 0x8BC5 = some (.subReg 0xB 0xC) ∧
    decode 0x8236 = some (.shr 2 3) ∧ decode 0x8DE7 = some (.subnReg 0xD 0xE) ∧ decode 0x812E = some (.shl 1 2) ∧
    decode 0x9F10 = some (.sneReg 0xF 1) := by decide
theorem test_decode_rows_21_to_26 : decode 0xA300 = some (.ldI 0x300) ∧ decode 0xBFFF = some (.jpV0 0xFFF) ∧
    decode 0xC30F = some (.rnd 3 0x0F) ∧ decode 0xD125 = some (.drw 1 2 5) ∧ decode 0xE59E = some (.skp 5) ∧
    decode 0xE6A1 = some (.sknp 6) := by decide
theorem test_decode_rows_27_to_35 : decode 0xF207 = some (.ldVxDt 2) ∧ decode 0xF30A = some (.ldVxK 3) ∧
    decode 0xF415 = some (.ldDtVx 4) ∧ decode 0xF518 = some (.ldStVx 5) ∧ decode 0xF61E = some (.addI 6) ∧
    decode 0xF729 = some (.ldF 7) ∧ decode 0xF833 = some (.ldB 8) ∧ decode 0xF955 = some (.stRegs 9) ∧
    decode 0xFA65 = some (.ldRegs 0xA) := by decide
/-- The illegal words of spec/95_test_vectors.md section 7. -/
theorem test_decode_refuses : decode 0x0001 = none ∧ decode 0x00EF = none ∧ decode 0x512F = none ∧ decode 0x8008 = none ∧
    decode 0x9011 = none ∧ decode 0xE19F = none ∧ decode 0xF000 = none ∧ decode 0xF0FF = none := by decide
theorem test_decode_bytes : decodeBytes [0x80, 0x14, 0xFF] = .ok (.addReg 0 1, [0xFF]) ∧
    decodeBytes [0x80] = .error .truncated ∧ decodeBytes [0x51, 0x21] = .error (.illegalInstruction 0x5121) :=
  ⟨rfl, rfl, rfl⟩
theorem test_decode_table_word : decodeTableWord 16 0xD125 = some (.drw 1 2 5) ∧ decodeTableWord 16 0x8008 = none := by
  decide
/-- R96: no two rows of R94 match one word: they differ in a bit that both masks fix. -/
theorem test_rows_do_not_overlap :
    opcodeTable.Pairwise (fun r q => r.bits &&& (r.mask &&& q.mask) ≠ q.bits &&& (r.mask &&& q.mask)) := by decide
theorem test_table_has_35_rows : opcodeTable.length = 35 := by decide
/-- R99: the free bits of the 35 masks give 43955 legal words. -/
theorem test_legal_word_count :
    (opcodeTable.map fun r => 2 ^ ((List.range 16).filter fun k => !r.mask.getLsbD k).length).sum = 43955 := by decide

/-! ### Reset and the font (W1, R46, R63) -/

theorem test_reset_font : State.reset.byteAt 0 = 0xF0 ∧ State.reset.byteAt 5 = 0x20 ∧ State.reset.byteAt 0x32 = 0xF0 ∧
    State.reset.byteAt 0x4F = 0x80 ∧ State.reset.byteAt 0x50 = 0 ∧ State.reset.byteAt 0xFFF = 0 := by decide
theorem test_reset_registers : State.reset.pc = 0x200 ∧ State.reset.sp = 0 ∧ State.reset.v = Vector.replicate 16 0 ∧
    State.reset.latch.halted = false := by decide
theorem test_reset_memory_wf : State.reset.mem.wf State.reset.cfg.fontRom = true := by decide
theorem test_write_keeps_canonical : (poke (poke State.reset 0x300 7) 0x300 0).mem = State.reset.mem := by decide
theorem test_withFetchWord : step (State.reset.withFetchWord 16 0x6A2B) = .next
    ((State.reset.withFetchWord 16 0x6A2B).setPc 0x202 |>.setReg 0xA 0x2B) := rfl

/-! ### Control flow -/

theorem test_nop_CF1 : (after (start 0x0000)).pc = 0x202 := by decide
theorem test_ret_CF2 : (after ((stacked (start 0x00EE) 1 0x202))).pc = 0x202 ∧
    (after ((stacked (start 0x00EE) 1 0x202))).sp = 0 := by decide
theorem test_ret_CF3 : faultRecord (after (start 0x00EE)) = (true, 3, 0x200, 0x00EE, 0, 0x200) := by decide
theorem test_jp_CF6 : (after (start 0x1201)).pc = 0x201 := by decide
theorem test_call_CF8 : (after (start 0x2300)).pc = 0x300 ∧ (after (start 0x2300)).sp = 1 ∧
    (after (start 0x2300)).stack[0] = 0x202 := by decide
theorem test_call_CF10 : faultRecord (after (stacked (start 0x2300) 16 0x202)) = (true, 2, 0x200, 0x2300, 0, 0x200) := by
  decide
theorem test_seByte_CF11 : (after ((start 0x3342).setReg 3 0x42)).pc = 0x204 := by decide
theorem test_seByte_CF12 : (after ((start 0x3342).setReg 3 0x41)).pc = 0x202 := by decide
theorem test_sneByte_CF14 : (after ((start 0x4342).setReg 3 0x41)).pc = 0x204 := by decide
theorem test_sneByte_CF15 : (after ((start 0x4342).setReg 3 0x42)).pc = 0x202 := by decide
theorem test_seReg_CF16 : (after (((start 0x5010).setReg 0 5).setReg 1 5)).pc = 0x204 := by decide
theorem test_seReg_CF17 : (after (((start 0x5010).setReg 0 5).setReg 1 6)).pc = 0x202 := by decide
theorem test_sneReg_CF19 : (after (((start 0x9010).setReg 0 5).setReg 1 6)).pc = 0x204 := by decide
theorem test_sneReg_CF20 : (after (start 0x9000)).pc = 0x202 := by decide
theorem test_jpV0_CF22 : (after ((start 0xBFFF).setReg 0 0xFF)).pc = 0x10FE := by decide
/-- The second STEP of CF7, X9 and Y1: the first address out of range is recorded. -/
theorem test_fetch_CF7 : faultRecord (after (State.reset.setPc 0xFFF)) = (true, 4, 0xFFF, 0, 0x1000, 0xFFF) := by decide
theorem test_fetch_X8 : (after (poke (poke (State.reset.setPc 0xFFE) 0xFFE 0x12) 0xFFF 0x00)).pc = 0x200 := by decide
theorem test_decode_Y2 : faultRecord (after (poke (poke (State.reset.setPc 0xFFE) 0xFFE 0xF0) 0xFFF 0xFF)) =
    (true, 1, 0xFFE, 0xF0FF, 0, 0xFFE) := by decide

/-! ### ALU -/

theorem test_ldByte_A1 : (after (start 0x6A2B)).reg 0xA = 0x2B := by decide
theorem test_addByte_A2 : (after (((start 0x7001).setReg 0 0xFF).setReg VF 7)).reg 0 = 0 ∧
    (after (((start 0x7001).setReg 0 0xFF).setReg VF 7)).reg VF = 7 := by decide
theorem test_ldReg_A4 : (after ((start 0x8010).setReg 1 0x33)).reg 0 = 0x33 := by decide
theorem test_orReg_A5 : (after (((start 0x8011).setReg 0 0xF0).setReg 1 0x0F)).reg 0 = 0xFF := by decide
theorem test_andReg_A6 : (after (((start 0x8012).setReg 0 0xF3).setReg 1 0x3F)).reg 0 = 0x33 := by decide
theorem test_xorReg_A7 : (after (((start 0x8013).setReg 0 0xFF).setReg 1 0x0F)).reg 0 = 0xF0 := by decide
theorem test_addReg_A9 : (after (((start 0x8014).setReg 0 0xFF).setReg 1 1)).reg 0 = 0 ∧
    (after (((start 0x8014).setReg 0 0xFF).setReg 1 1)).reg VF = 1 := by decide
theorem test_addReg_A12 : (after (((start 0x8F04).setReg 0 1).setReg VF 0xFF)).reg VF = 1 := by decide
theorem test_subReg_A14 : (after (((start 0x8015).setReg 0 3).setReg 1 5)).reg 0 = 0xFE ∧
    (after (((start 0x8015).setReg 0 3).setReg 1 5)).reg VF = 0 := by decide
theorem test_subReg_A16 : (after (((start 0x8F15).setReg VF 5).setReg 1 3)).reg VF = 1 := by decide
theorem test_shr_W4 : (after (((start 0x8236).setReg 2 5).setReg 3 0xAA)).reg 2 = 2 ∧
    (after (((start 0x8236).setReg 2 5).setReg 3 0xAA)).reg VF = 1 := by decide
theorem test_shr_A23 : (after ((start 0x8F06).setReg VF 3)).reg VF = 1 := by decide
theorem test_subnReg_A18 : (after (((start 0x8017).setReg 0 5).setReg 1 3)).reg 0 = 0xFE ∧
    (after (((start 0x8017).setReg 0 5).setReg 1 3)).reg VF = 0 := by decide
theorem test_shl_W4 : (after (((start 0x823E).setReg 2 0x81).setReg 3 0x55)).reg 2 = 2 ∧
    (after (((start 0x823E).setReg 2 0x81).setReg 3 0x55)).reg VF = 1 := by decide
theorem test_shl_A27 : (after ((start 0x8F0E).setReg VF 0x40)).reg VF = 0 := by decide
/-- A28 to A30 give the mask's answer for a drawn byte; here STEP's input is the draw (R42). -/
theorem test_rnd_A28 : ∃ t, stepWith 0xAB (start 0xC30F) = .next t ∧ t.reg 3 = 0x0B := ⟨_, rfl, rfl⟩
theorem test_rnd_A29 : (after (start 0xC300)).reg 3 = 0 := (BitVec.and_zero : _ &&& 0#8 = 0#8)

/-! ### Index register and memory -/

theorem test_ldI_M1 : (after (start 0xA300)).index = 0x300 := by decide
theorem test_addI_M4 : (after (((start 0xFF1E).setIndex 0xFFFF).setReg VF 0xFF)).index = 0x00FE ∧
    (after (((start 0xFF1E).setIndex 0xFFFF).setReg VF 0xFF)).reg VF = 0xFF := by decide
theorem test_ldF_M6 : (after ((start 0xF429).setReg 4 0x1F)).index = 0x4B := by decide
theorem test_ldB_M9 : (after (((start 0xF033).setIndex 0x300).setReg 0 0xFF)).mem =
    (poke (poke (poke (start 0xF033) 0x300 2) 0x301 5) 0x302 5).mem := by decide
theorem test_stRegs_M14 : (after ((((start 0xF255).setIndex 0x300).setReg 0 1).setReg 2 3)).mem =
    (poke (poke (start 0xF255) 0x300 1) 0x302 3).mem := by decide
theorem test_stRegs_Y4 : faultRecord (after (((start 0xFF55).setIndex 0xFF8).setReg 0 0x11)) =
      (true, 4, 0x200, 0xFF55, 0x1000, 0x200) ∧
    (after (((start 0xFF55).setIndex 0xFF8).setReg 0 0x11)).mem = (start 0xFF55).mem := by decide
theorem test_ldRegs_M18 : (after (poke (poke ((start 0xF265).setIndex 0x300) 0x300 2) 0x302 4)).v.toList.take 4 =
    [2, 0, 4, 0] := by decide
theorem test_ldRegs_M21 : faultRecord (after ((start 0xFF65).setIndex 0xFF1)) =
    (true, 4, 0x200, 0xFF65, 0x1000, 0x200) := by decide
/-- M12 under FONT_WRITE_POLICY = Write. -/
theorem test_ldB_M12 : (after (lenient (((start 0xF033).setIndex 0x4E).setReg 0 7))).byteAt 0x4F = 0 ∧
    (after (lenient (((start 0xF033).setIndex 0x4E).setReg 0 7))).byteAt 0x50 = 7 := by decide

/-! ### Display: bit x of row y is pixel (x, y) -/

theorem test_cls_DS1 : (after ((start 0x00E0).setFb (Vector.replicate 32 1))).fb = Vector.replicate 32 0 := by decide
theorem test_drw_DS9 : (after ((poke ((start 0xD011).setIndex 0x300) 0x300 0xC0).setFb
      (fbToggle (Vector.replicate 32 0) 1))).fb.toList.take 2 = [1, 0] ∧
    (after ((poke ((start 0xD011).setIndex 0x300) 0x300 0xC0).setFb
      (fbToggle (Vector.replicate 32 0) 1))).reg VF = 1 := by decide
/-- DS4 and DS5 in one: columns and rows wrap. -/
theorem test_drw_wraps : (after (poke (poke ((((start 0xD012).setReg 0 0x3F).setReg 1 0x1F).setIndex 0x300) 0x300 0xFF)
    0x301 0x80)).fb.toList.drop 31 = [0x800000000000007F] ∧
    (after (poke (poke ((((start 0xD012).setReg 0 0x3F).setReg 1 0x1F).setIndex 0x300) 0x300 0xFF)
    0x301 0x80)).fb.toList.take 1 = [0x8000000000000000] := by decide

/-! ### Keys and timers -/

theorem test_skp_K1 : (after (((start 0xE59E).setReg 5 7).setKey 7 true)).pc = 0x204 := by decide
theorem test_skp_K5 : faultRecord (after ((start 0xE09E).setReg 0 0x10)) = (true, 6, 0x200, 0xE09E, 0x10, 0x200) := by
  decide
theorem test_sknp_K3 : (after ((start 0xE5A1).setReg 5 7)).pc = 0x204 := by decide
theorem test_sknp_Y5 : faultRecord (after ((start 0xE0A1).setReg 0 0x20)) = (true, 6, 0x200, 0xE0A1, 0x20, 0x200) := by
  decide
theorem test_ldVxK_K6 : (after (start 0xF30A)).pc = 0x200 := by decide
theorem test_ldVxK_K7 : (after (((start 0xF30A).setKey 7 true).setKey 2 true)).reg 3 = 2 ∧
    (after (((start 0xF30A).setKey 7 true).setKey 2 true)).pc = 0x202 := by decide
theorem test_ldVxDt_K9 : (after ((start 0xF207).setDt 0x3C)).reg 2 = 0x3C := by decide
theorem test_ldDtVx_K10 : (after ((start 0xF215).setReg 2 0x3C)).dt = 0x3C := by decide
theorem test_ldStVx_K11 : (after ((start 0xF218).setReg 2 5)).st = 5 := by decide

/-! ### Transactions -/

theorem test_tick_K12 : ((State.reset.setDt 1).setSt 0).tick.dt = 0 ∧ ((State.reset.setDt 1).setSt 0).tick.st = 0 := by
  decide
theorem test_key_K15 : transact (.key 16 true) State.reset = .next (State.reset, .keyRange) := rfl
theorem test_load_X2 : ∃ t, transact (.load [0x12, 0x00]) (after (start 0x00EE)) = .next (t, .ok) ∧
    t.byteAt 0x200 = 0x12 ∧ t.byteAt 0x201 = 0 ∧ t.latch.halted = true := ⟨_, rfl, rfl, rfl, rfl⟩
theorem test_load_X4 (bs : List Byte) (h : bs.length = 3585) :
    transact (.load bs) State.reset = .next (State.reset, .loadCapacity) := if_neg (by omega)
theorem test_status_X10 : transact .readStatus (after (start 0x00EE)) = .next (after (start 0x00EE),
    .status (after (start 0x00EE)).latch 0) := rfl

/-! ### Witnesses: for each statement with hypotheses, states and operands that meet them together -/

/-- The word under PC, for a PC inside memory. -/
theorem fetches_of {s : State} {w : Word} (h : s.fetch = .ok w) : FetchesWord s w := fetchesWord_iff.2 h

theorem witness_EncodeOfDecodeIsTheWord : decode 0x8236 = some (.shr 2 3) := by decide
theorem witness_DecodeFollowsTheOpcodeTable :
    (⟨"SHR_Vx__Vy", 0x8006, 0xF00F⟩ : OpcodeRow) ∈ opcodeTable ∧ (0x8236 : Word) &&& 0xF00F = 0x8006 ∧
    (0x8237 : Word) &&& 0xF00F ≠ 0x8006 := by decide
theorem witness_IllegalWordsAreExactlyTheListedOnes :
    decode 0x0123 = none ∧ legalWord 0x0123 = false ∧ decode 0x00EE ≠ none := by decide
theorem witness_StepRunsTheFetchedInstruction :
    Running (start 0x8014) ∧ FetchesWord (start 0x8014) 0x8014 ∧ decode 0x8014 = some (.addReg 0 1) :=
  ⟨rfl, fetches_of (by decide), by decide⟩
theorem witness_HaltedStepChangesNothing : (after (start 0x00EE)).latch.halted = true := by decide
theorem witness_IllegalWordHaltsTheCore :
    Running (start 0x0123) ∧ FetchesWord (start 0x0123) 0x0123 ∧ decode 0x0123 = none :=
  ⟨rfl, fetches_of (by decide), by decide⟩
theorem witness_FetchFaultsExactlyOutsideMemory_first :
    Running (State.reset.setPc 0xFFF) ∧ (State.reset.setPc 0xFFF).cfg.oob = .fault ∧
    4095 ≤ (State.reset.setPc 0xFFF).pc.toNat := ⟨rfl, rfl, by decide⟩
theorem witness_FetchFaultsExactlyOutsideMemory_second :
    (State.reset.setPc 0xFFE).pc.toNat < 4095 ∧ (lenient (State.reset.setPc 0xFFFF)).cfg.oob = .wrap :=
  ⟨by decide, rfl⟩
theorem witness_FaultsArePrecise : Running (start 0x00EE) ∧ step (start 0x00EE) = .next (after (start 0x00EE)) ∧
    ¬ Running (after (start 0x00EE)) := 
  ⟨rfl, rfl, fun h => absurd (show true = false from h) (by decide)⟩
theorem witness_ResetLeavesTheListedValues : (after (start 0x00EE)).cfg = Config.default := rfl
theorem inv_reset : Inv State.reset :=
  ⟨rfl, fun _ a h => by simp [State.byteAt, Memory.read, State.reset, State.resetWith, Memory.find, Memory.unlisted, h], rfl⟩
theorem witness_StepKeepsTheInvariant : Inv State.reset ∧ step State.reset = .next (State.reset.setPc 0x202) :=
  ⟨inv_reset, rfl⟩
theorem witness_TransactionsKeepTheInvariant :
    Inv State.reset ∧ transact (.load [0x00, 0xEE]) State.reset = .next (State.reset.load [0x00, 0xEE], .ok) ∧
    transact (.step 7) State.reset = .next (State.reset.setPc 0x202, .ok) := ⟨inv_reset, rfl, rfl⟩
theorem witness_StepsLeaveTheFontRegionUnderTheFaultPolicy :
    ((start 0xF055).setIndex 0x50).cfg.fontWrite = .fault ∧ step ((start 0xF055).setIndex 0x50) =
      .next (after ((start 0xF055).setIndex 0x50)) := ⟨rfl, rfl⟩
theorem witness_OnlyTheListedRegistersAreWritten : exec (.ldByte 3 7) State.reset = .next (State.reset.setReg 3 7) ∧
    ¬ MayWriteReg (.ldByte 3 7) State.reset 4 := ⟨rfl, by simp [MayWriteReg]⟩
theorem witness_IndexAndStackHaveTheirOwnWriters :
    exec (.addByte 0 1) State.reset = .next (State.reset.setReg 0 1) ∧ (∀ nnn, Instr.addByte 0 1 ≠ .ldI nnn) ∧
    (∀ x, Instr.addByte 0 1 ≠ .addI x) ∧ (∀ x, Instr.addByte 0 1 ≠ .ldF x) ∧ (∀ nnn, Instr.addByte 0 1 ≠ .call nnn) ∧
    Instr.addByte 0 1 ≠ .ret := ⟨rfl, by simp, by simp, by simp, by simp, by simp⟩
theorem witness_TimersAndKeysHaveTheirOwnWriters :
    exec .nop State.reset = .next State.reset ∧ (∀ x, Instr.nop ≠ .ldDtVx x) ∧ (∀ x, Instr.nop ≠ .ldStVx x) ∧
    transact (.key 3 true) State.reset = .next (State.reset.setKey 3 true, .ok) ∧ Transaction.key 3 true ≠ .tick ∧
    transact .tick State.reset = .next (State.reset.tick, .ok) ∧ ∀ k b, Transaction.tick ≠ .key k b :=
  ⟨rfl, by simp, by simp, rfl, by simp, rfl, by simp⟩
theorem witness_FramebufferAndMemoryHaveTheirOwnWriters :
    exec (.addByte 0 1) State.reset = .next (State.reset.setReg 0 1) ∧ Instr.addByte 0 1 ≠ .cls ∧
    (∀ x y n, Instr.addByte 0 1 ≠ .drw x y n) ∧ (∀ x, Instr.addByte 0 1 ≠ .ldB x) ∧
    ∀ x, Instr.addByte 0 1 ≠ .stRegs x := ⟨rfl, by simp, by simp, by simp, by simp⟩
theorem witness_ProgramCounterChangesOnlyAsListed :
    Running State.reset ∧ step State.reset = .next (State.reset.setPc 0x202) ∧ Running (State.reset.setPc 0x202) ∧
    transact .reset State.reset = .next (State.reset, .ok) ∧ transact .tick State.reset = .next (State.reset.tick, .ok) ∧
    step (start 0x00EE) = .next (after (start 0x00EE)) ∧ ¬ Running (after (start 0x00EE)) :=
  ⟨rfl, rfl, rfl, rfl, rfl, rfl, fun h => absurd (show true = false from h) (by decide)⟩
theorem witness_OtherInstructionsNeverFault : ¬ CanFault (.addI 3) := id
theorem witness_NopChangesNothing : Running State.reset ∧ FetchesWord State.reset 0x0000 :=
  ⟨rfl, fetches_of (by decide)⟩
/-- Both ends of SP's range. -/
theorem witness_ReturnPopsIntoTheProgramCounter :
    (stacked State.reset 1 0x202).sp.val = 0 + 1 ∧ (stacked State.reset 16 0x202).sp.val = 15 + 1 := by decide
/-- Also of ReturnAfterCallContinuesAfterIt; both ends of SP's range. -/
theorem witness_CallPushesAndJumps : State.reset.sp.val < 16 ∧ (stacked State.reset 15 0x202).sp.val < 16 := by decide
theorem witness_StackFaults : (stacked State.reset 16 0x202).sp = 16 ∧ State.reset.sp = 0 := by decide
theorem witness_StepInputIsTheDrawOfItsRandomInstruction :
    Running (start 0xC30F) ∧ FetchesWord (start 0xC30F) 0xC30F ∧ decode 0xC30F = some (.rnd 3 0x0F) :=
  ⟨rfl, fetches_of (by decide), by decide⟩
theorem witness_OnlyRandomReadsTheStepInput :
    ∀ w x nn, FetchesWord (start 0x8014) w → decode w ≠ some (.rnd x nn) := by
  intro w x nn h
  have h2 : (start 0x8014).fetch = .ok 0x8014 := by decide
  obtain rfl : w = 0x8014 := by simpa using (fetchesWord_iff.1 h).symm.trans h2
  intro hd
  cases (show decode 0x8014 = some (.addReg 0 1) by decide).symm.trans hd

/-- The last place where all three bytes fit, and the first outside the font. -/
theorem witness_DecimalStoreWritesThreeDigits :
    (∀ k, k < 3 → storeAddr (State.reset.setIndex 0xFFD).cfg ((State.reset.setIndex 0xFFD).index.toNat + k) =
      .ok (0xFFD + k)) ∧
    (∀ k, k < 3 → storeAddr (State.reset.setIndex 0x50).cfg ((State.reset.setIndex 0x50).index.toNat + k) =
      .ok (0x50 + k)) :=
  ⟨fun k hk => storeAddr_plain (show 80 ≤ 0xFFD + k by omega) (show 0xFFD + k < 4096 by omega),
   fun k hk => storeAddr_plain (show 80 ≤ 0x50 + k by omega) (show 0x50 + k < 4096 by omega)⟩
/-- X at both ends. -/
theorem witness_BlockStoreWritesTheRegisters :
    (∀ k, k ≤ (15 : Reg).toNat → storeAddr (State.reset.setIndex 0xFF0).cfg
      ((State.reset.setIndex 0xFF0).index.toNat + k) = .ok (0xFF0 + k)) ∧
    (∀ k, k ≤ (0 : Reg).toNat → storeAddr (State.reset.setIndex 0xFFF).cfg
      ((State.reset.setIndex 0xFFF).index.toNat + k) = .ok (0xFFF + k)) :=
  ⟨fun k hk => storeAddr_plain (show 80 ≤ 0xFF0 + k by omega)
      (show 0xFF0 + k < 4096 by have : k ≤ 15 := hk; omega),
   fun k hk => storeAddr_plain (show 80 ≤ 0xFFF + k by omega)
      (show 0xFFF + k < 4096 by have : k ≤ 0 := hk; omega)⟩
/-- MemoryBounds at the third byte (M13), after two that can be stored to. -/
theorem witness_StoresFaultAtTheirFirstFailingAddress_bounds :
    ((∃ x, Instr.ldB 0 = .ldB x ∧ 3 = 3) ∨ ∃ x, Instr.ldB 0 = .stRegs x ∧ 3 = x.toNat + 1) ∧
    (∀ j, j < 2 → ∃ c, storeAddr (State.reset.setIndex 0xFFE).cfg ((State.reset.setIndex 0xFFE).index.toNat + j) =
      .ok c) ∧
    (State.reset.setIndex 0xFFE).cfg.oob = .fault ∧ 4096 ≤ (State.reset.setIndex 0xFFE).index.toNat + 2 :=
  ⟨.inl ⟨0, rfl, rfl⟩, fun j hj => ⟨_, storeAddr_plain (show 80 ≤ 0xFFE + j by omega) (show 0xFFE + j < 4096 by omega)⟩,
   rfl, by decide⟩
/-- FontWrite at the first byte (M16), where no earlier address exists, for FX55 with X = 0. -/
theorem witness_StoresFaultAtTheirFirstFailingAddress_font :
    ((∃ x, Instr.stRegs 0 = .ldB x ∧ 1 = 3) ∨ ∃ x, Instr.stRegs 0 = .stRegs x ∧ 1 = x.toNat + 1) ∧
    (State.reset.setIndex 0x4F).cfg.fontWrite = .fault ∧
    memAddr (State.reset.setIndex 0x4F).cfg.oob ((State.reset.setIndex 0x4F).index.toNat + 0) = .ok 0x4F ∧ 0x4F < 80 :=
  ⟨.inr ⟨0, rfl, rfl⟩, rfl, rfl, by decide⟩
/-- The font rule reached by wrapping: I = 0x0FFF and OOB_POLICY = Wrap, second byte. -/
theorem witness_StoresFaultAtTheirFirstFailingAddress_wrapped :
    memAddr .wrap (0x0FFF + 1) = .ok 0 ∧ storeAddr { Config.default with oob := .wrap } (0x0FFF + 0) = .ok 0x0FFF ∧
    storeAddr { Config.default with oob := .wrap } (0x0FFF + 1) = .error (.fontWrite 0) := ⟨rfl, rfl, rfl⟩
theorem witness_BlockLoadReadsTheRegisters :
    (∀ k, k ≤ (15 : Reg).toNat → memAddr (State.reset.setIndex 0xFF0).cfg.oob
      ((State.reset.setIndex 0xFF0).index.toNat + k) = .ok (0xFF0 + k)) ∧
    (∀ k, k ≤ (0 : Reg).toNat → memAddr (State.reset.setIndex 0).cfg.oob
      ((State.reset.setIndex 0).index.toNat + k) = .ok (0 + k)) :=
  ⟨fun k hk => memAddr_below (show 0xFF0 + k < 4096 by have : k ≤ 15 := hk; omega),
   fun k hk => memAddr_below (show 0 + k < 4096 by have : k ≤ 0 := hk; omega)⟩
/-- M21 and DS10. -/
theorem witness_ReadsFaultAtTheirFirstAddressOutsideMemory :
    (((∃ x, Instr.ldRegs 15 = .ldRegs x ∧ 16 = x.toNat + 1) ∨
      ∃ x y m, Instr.ldRegs 15 = .drw x y m ∧ 16 = BitVec.toNat m) ∧
      4096 < (State.reset.setIndex 0xFF1).index.toNat + 16) ∧
    (((∃ x, Instr.drw 0 1 15 = .ldRegs x ∧ 15 = x.toNat + 1) ∨
      ∃ x y m, Instr.drw 0 1 15 = .drw x y m ∧ 15 = BitVec.toNat m) ∧
      4096 < (State.reset.setIndex 0xFF2).index.toNat + 15) ∧ State.reset.cfg.oob = .fault :=
  ⟨⟨.inl ⟨15, rfl, rfl⟩, by decide⟩, ⟨.inr ⟨0, 1, 15, rfl, rfl⟩, by decide⟩, rfl⟩
theorem witness_StoredCodeIsTheNextFetched :
    Running (State.reset.setIndex 0x300) ∧
    exec (.stRegs 1) ((State.reset.setIndex 0x300).setReg 0 0x12) =
      .next (poke ((State.reset.setIndex 0x300).setReg 0 0x12) 0x300 0x12) ∧
    Running (poke ((State.reset.setIndex 0x300).setReg 0 0x12) 0x300 0x12) ∧ 1 ≤ (1 : Reg).toNat :=
  ⟨rfl, rfl, rfl, by decide⟩
/-- N = 15 ending at the last byte (DS11), and N = 0, which needs no address. -/
theorem witness_DrawInvertsThePixelsUnderTheSprite :
    (∀ r, r < (15 : Nibble).toNat → memAddr (State.reset.setIndex 0xFF1).cfg.oob
      ((State.reset.setIndex 0xFF1).index.toNat + r) = .ok (0xFF1 + r)) ∧
    (∀ r, r < (0 : Nibble).toNat → memAddr (State.reset.setIndex 0xFFFF).cfg.oob
      ((State.reset.setIndex 0xFFFF).index.toNat + r) = .ok r) :=
  ⟨fun r hr => memAddr_below (show 0xFF1 + r < 4096 by have : r < 15 := hr; omega),
   fun r hr => absurd (show r < 0 from hr) (by omega)⟩
/-- A pixel under the sprite that is clear before the first draw, and one that is set. -/
theorem witness_DrawPixels : UnderSprite 0 0 [0x80] 0 ∧ pixel State.reset.fb 0 = false ∧
    pixel (fbToggle State.reset.fb 0) 0 = true :=
  ⟨⟨0, 0, by omega, ⟨0x80, rfl, rfl⟩, rfl⟩, by decide, by decide⟩
/-- DS2 then DS3: glyph 0 drawn at (0, 0), then again on what the first draw left. -/
theorem witness_DrawingTwiceRestoresTheFramebuffer :
    (∀ r, r < (5 : Nibble).toNat → memAddr State.reset.cfg.oob (State.reset.index.toNat + r) = .ok (0 + r)) ∧
    exec (.drw 0 0 5) State.reset = .next (State.reset.draw 0 0 [0xF0, 0x90, 0x90, 0x90, 0xF0]) ∧
    (State.reset.draw 0 0 [0xF0, 0x90, 0x90, 0x90, 0xF0]).cfg = State.reset.cfg ∧
    (State.reset.draw 0 0 [0xF0, 0x90, 0x90, 0x90, 0xF0]).index = State.reset.index ∧
    (State.reset.draw 0 0 [0xF0, 0x90, 0x90, 0x90, 0xF0]).reg 0 = State.reset.reg 0 ∧
    (∀ c, (State.reset.draw 0 0 [0xF0, 0x90, 0x90, 0x90, 0xF0]).byteAt c = State.reset.byteAt c) :=
  ⟨fun r hr => memAddr_below (show 0 + r < 4096 by have : r < 5 := hr; omega), rfl, rfl, rfl, rfl, fun _ => rfl⟩
/-- V[X] = 15, the last key, under the default; V[X] = 16 under LowNibble. -/
theorem witness_KeySkipsTestTheKeyOfTheRegister :
    ((State.reset.setReg 5 15).reg 5).toNat < 16 ∧ (lenient (State.reset.setReg 5 16)).cfg.keyIndex = .lowNibble :=
  ⟨by decide, rfl⟩
theorem witness_KeySkipsFaultOnNoKey :
    16 ≤ ((State.reset.setReg 5 16).reg 5).toNat ∧ State.reset.cfg.keyIndex = .fault := ⟨by decide, rfl⟩
/-- Keys 2 and 7 pressed; key 15 alone; none. -/
theorem witness_WaitForKeyLoadsTheLowestPressedKey :
    (((State.reset.setKey 7 true).setKey 2 true).keyAt 2 = true ∧
      ∀ j, j < 2 → ((State.reset.setKey 7 true).setKey 2 true).keyAt j = false) ∧
    ((State.reset.setKey 15 true).keyAt 15 = true ∧ ∀ j, j < 15 → (State.reset.setKey 15 true).keyAt j = false) ∧
    (Running (start 0xF30A) ∧ FetchesWord (start 0xF30A) 0xF30A ∧ decode 0xF30A = some (.ldVxK 3) ∧
      ∀ k, k < 16 → (start 0xF30A).keyAt k = false) :=
  ⟨by decide, by decide, rfl, fetches_of (by decide), by decide, by decide⟩
theorem witness_KeySetsOneKeyOrIsRejected : (15 : Byte).toNat < 16 ∧ 16 ≤ (16 : Byte).toNat := by decide
/-- X5 and X4. -/
theorem witness_LoadWritesItsBytesOrIsRejected :
    (List.replicate 3584 (0x12 : Byte)).length ≤ 3584 ∧ 3584 < (List.replicate 3585 (0x12 : Byte)).length := by
  rw [List.length_replicate, List.length_replicate]; omega
/-- CF5. -/
theorem witness_SelfJumpLeavesTheStateUnchanged : AtSelfJump (start 0x1200) :=
  ⟨rfl, 0x200, rfl, fetches_of (by decide)⟩

end Sys2Proof.Tests
end

section
/-!
The fetch and the step (spec/20_memory.md, R65).
-/

namespace Sys2Proof.Machine

/-- Settles O6: the hypothesis on memory is the fetch answering `w`, so the step is the decoded one; the state it runs
on is `s.advance`, which is by definition `s` with PC + 2. -/
theorem stepRunsTheFetchedInstruction : Obligations.StepRunsTheFetchedInstruction := by
  intro s w i hrun hfetch hdec
  have hword : s.fetch = .ok w := fetchesWord_iff.1 hfetch
  exact step_decoded hrun hword hdec

end Sys2Proof.Machine
end

section
/-!
Control flow and LD I (spec/40_control_flow.md, R111 to R119; spec/42_index_memory.md, R160).
-/

namespace Sys2Proof.Machine

/-! ### What each instruction answers -/

theorem exec_nop (s : State) : exec .nop s = .next s := rfl

theorem exec_jp (nnn : Imm12) (s : State) : exec (.jp nnn) s = .next (s.setPc (zextAddr nnn)) := rfl

theorem exec_jpV0 (nnn : Imm12) (s : State) :
    exec (.jpV0 nnn) s = .next (s.setPc (zextAddr nnn + zextByte (s.reg 0))) := rfl

theorem exec_ldI (nnn : Imm12) (s : State) : exec (.ldI nnn) s = .next (s.setIndex (zextAddr nnn)) := rfl

theorem exec_seByte (x : Reg) (nn : Byte) (s : State) :
    exec (.seByte x nn) s = .next (s.skipIf (s.reg x == nn)) := rfl

theorem exec_sneByte (x : Reg) (nn : Byte) (s : State) :
    exec (.sneByte x nn) s = .next (s.skipIf (s.reg x != nn)) := rfl

theorem exec_seReg (x y : Reg) (s : State) :
    exec (.seReg x y) s = .next (s.skipIf (s.reg x == s.reg y)) := rfl

theorem exec_sneReg (x y : Reg) (s : State) :
    exec (.sneReg x y) s = .next (s.skipIf (s.reg x != s.reg y)) := rfl

/-! ### Immediates as numbers -/

@[simp] theorem zextAddr_toNat (nnn : Imm12) : (zextAddr nnn).toNat = nnn.toNat :=
  BitVec.toNat_setWidth_of_le (by decide)

@[simp] theorem zextByte_toNat (b : Byte) : (zextByte b).toNat = b.toNat :=
  BitVec.toNat_setWidth_of_le (by decide)

/-- An address of 12 bits and a byte sum to less than 2^16, so JP V0 never wraps (R119). -/
theorem zextAddr_add_zextByte_toNat (nnn : Imm12) (b : Byte) :
    (zextAddr nnn + zextByte b).toNat = nnn.toNat + b.toNat := by
  have hsum : (zextAddr nnn).toNat + (zextByte b).toNat < 2 ^ 16 := by
    rw [zextAddr_toNat, zextByte_toNat]
    omega
  rw [BitVec.toNat_add_of_lt hsum, zextAddr_toNat, zextByte_toNat]

/-! ### The fetch advance and the skip -/

@[simp] theorem State.advance_pc (s : State) : s.advance.pc = s.pc + 2 := rfl

theorem changesOnly_advance (s : State) : ChangesOnly [.pc] s s.advance := changesOnly_setPc s (s.pc + 2)

/-- Skipping on equality, as SE does (R115, R117). -/
theorem State.skipIf_beq_pc (s : State) (a b : Byte) :
    (s.skipIf (a == b)).pc = if a = b then s.pc + 2 else s.pc := by
  rw [State.skipIf_pc]
  by_cases hab : a = b <;> simp [hab]

/-- Skipping on inequality, as SNE does (R116, R118). -/
theorem State.skipIf_bne_pc (s : State) (a b : Byte) :
    (s.skipIf (a != b)).pc = if a = b then s.pc else s.pc + 2 := by
  rw [State.skipIf_pc]
  by_cases hab : a = b <;> simp [hab]

/-! ### The obligations -/

/-- Settles O23: the word 0x0000 decodes to NOP, which answers the state after the fetch advance. -/
theorem nopChangesNothing : Obligations.NopChangesNothing := by
  refine ⟨exec_nop, fun s hrun hfetch => ⟨s.advance, ?_, s.advance_pc, changesOnly_advance s⟩⟩
  have hdec : decode 0x0000 = some .nop := by decide
  rw [step_decoded hrun (fetchesWord_iff.1 hfetch) hdec, exec_nop]

/-- Settles O28: each instruction writes its zero-extended immediate, and the sum of JP V0 does not wrap. -/
theorem addressImmediatesAreLoaded : Obligations.AddressImmediatesAreLoaded := fun nnn s =>
  ⟨⟨_, exec_jp nnn s, zextAddr_toNat nnn, changesOnly_setPc s _⟩,
    ⟨_, exec_jpV0 nnn s, zextAddr_add_zextByte_toNat nnn (s.reg 0), changesOnly_setPc s _⟩,
    ⟨_, exec_ldI nnn s, zextAddr_toNat nnn, changesOnly_setIndex s _⟩⟩

/-- Settles O29: both are a skip on the comparison of V[X] with NN. -/
theorem byteSkipsCompareWithTheImmediate : Obligations.ByteSkipsCompareWithTheImmediate := fun x nn s =>
  ⟨⟨_, exec_seByte x nn s, s.skipIf_beq_pc (s.reg x) nn, changesOnly_skipIf s _⟩,
    ⟨_, exec_sneByte x nn s, s.skipIf_bne_pc (s.reg x) nn, changesOnly_skipIf s _⟩⟩

/-- Settles O30: both are a skip on the comparison of V[X] with V[Y]. -/
theorem registerSkipsCompareTwoRegisters : Obligations.RegisterSkipsCompareTwoRegisters := fun x y s =>
  ⟨⟨_, exec_seReg x y s, s.skipIf_beq_pc (s.reg x) (s.reg y), changesOnly_skipIf s _⟩,
    ⟨_, exec_sneReg x y s, s.skipIf_bne_pc (s.reg x) (s.reg y), changesOnly_skipIf s _⟩⟩

end Sys2Proof.Machine
end

section
/-!
The register loads and the immediate ADD (spec/41_alu.md, R132 to R134).
-/

namespace Sys2Proof.Machine

/-! ### What each instruction answers -/

theorem exec_ldByte (x : Reg) (nn : Byte) (s : State) : exec (.ldByte x nn) s = .next (s.setReg x nn) := rfl

theorem exec_addByte (x : Reg) (nn : Byte) (s : State) :
    exec (.addByte x nn) s = .next (s.setReg x (s.reg x + nn)) := rfl

theorem exec_ldReg (x y : Reg) (s : State) : exec (.ldReg x y) s = .next (s.setReg x (s.reg y)) := rfl

/-! ### The register just written -/

theorem State.setReg_reg_same (s : State) (x : Reg) (b : Byte) : (s.setReg x b).reg x = b := by
  rw [State.setReg_reg, if_pos rfl]

/-- Adding a byte to V[X] is addition modulo 256 (R133). -/
theorem State.setReg_add_reg_toNat (s : State) (x : Reg) (b : Byte) :
    ((s.setReg x (s.reg x + b)).reg x).toNat = ((s.reg x).toNat + b.toNat) % 256 := by
  rw [State.setReg_reg_same, BitVec.toNat_add]

/-! ### The obligation -/

/-- Settles O31: each instruction is one write to V[X], whose frame is V[X] alone, so ADD leaves VF unless X = 15. -/
theorem loadsAndImmediateAddWriteOneRegister : Obligations.LoadsAndImmediateAddWriteOneRegister := fun x y nn s =>
  ⟨⟨_, exec_ldByte x nn s, s.setReg_reg_same x nn, changesOnly_setReg s x _⟩,
    ⟨_, exec_addByte x nn s, s.setReg_add_reg_toNat x nn, changesOnly_setReg s x _⟩,
    ⟨_, exec_ldReg x y s, s.setReg_reg_same x (s.reg y), changesOnly_setReg s x _⟩⟩

end Sys2Proof.Machine
end

section
/-!
Clearing the display (spec/43_display.md, R180).
-/

namespace Sys2Proof.Machine

/-! ### What the instruction answers -/

theorem exec_cls (s : State) : exec .cls s = .next (s.setFb fbClear) := rfl

/-! ### The cleared framebuffer -/

/-- Once the cleared framebuffer is written, every pixel reads false (R180). -/
theorem State.pixel_setFb_fbClear (s : State) (p : Nat) : pixel (s.setFb fbClear).fb p = false := by
  rw [State.setFb_fb, pixel_fbClear]

/-! ### The obligation -/

/-- Settles O46: CLS is one write of the cleared framebuffer, whose frame is the framebuffer alone. -/
theorem clearMakesEveryPixelFalse : Obligations.ClearMakesEveryPixelFalse := fun s =>
  ⟨s.setFb fbClear, exec_cls s, fun p _ => s.pixel_setFb_fbClear p, changesOnly_setFb s fbClear⟩

end Sys2Proof.Machine
end

section
/-!
LD Vx, K (spec/44_input_timers.md, R202).
-/

namespace Sys2Proof.Machine

/-! ### The lowest pressed key -/

/-- The converse of `State.lowestKey_some`: a pressed key below which none is pressed is the one found. -/
theorem State.lowestKey_eq_some {s : State} {k : Nat} (hk : k < 16) (hpressed : s.keyAt k = true)
    (hlower : ∀ j, j < k → s.keyAt j = false) : s.lowestKey = some k :=
  List.find?_range_eq_some.2 ⟨hpressed, List.mem_range.2 hk, fun j hj => by simp [hlower j hj]⟩

/-- The converse of `State.lowestKey_none`. -/
theorem State.lowestKey_eq_none {s : State} (hnone : ∀ k, k < 16 → s.keyAt k = false) : s.lowestKey = none :=
  List.find?_eq_none.2 fun k hk => by simp [hnone k (List.mem_range.1 hk)]

/-! ### What the instruction answers -/

theorem exec_ldVxK_of_pressed {s : State} {k : Nat} (x : Reg) (hkey : s.lowestKey = some k) :
    exec (.ldVxK x) s = .next (s.setReg x (BitVec.ofNat 8 k)) := by
  simp only [exec, execLdVxK, hkey]

theorem exec_ldVxK_of_none {s : State} (x : Reg) (hkey : s.lowestKey = none) :
    exec (.ldVxK x) s = .next (s.setPc (s.pc - 2)) := by
  simp only [exec, execLdVxK, hkey]

/-! ### The key's index as a byte, and the rewind after the fetch advance -/

theorem State.setReg_ofNat_reg_toNat (s : State) (x : Reg) {k : Nat} (hk : k < 16) :
    ((s.setReg x (BitVec.ofNat 8 k)).reg x).toNat = k := by
  rw [State.setReg_reg_same, BitVec.toNat_ofNat, Nat.mod_eq_of_lt (by omega)]

/-- Rewinding PC by 2 undoes the fetch advance, also where the advance wrapped around. -/
theorem State.advance_rewind (s : State) : s.advance.setPc (s.advance.pc - 2) = s := by
  rw [State.advance_pc, BitVec.add_sub_cancel]
  rfl

/-- With no key pressed, the step of LD Vx, K leaves the whole state as it was: the fetch advance leaves the keys alone,
and the rewind undoes it. -/
theorem step_ldVxK_of_none {s : State} {w : Word} {x : Reg} (hrun : Running s) (hfetch : FetchesWord s w)
    (hdec : decode w = some (.ldVxK x)) (hkey : s.lowestKey = none) : step s = .next s := by
  have hadvanced : s.advance.lowestKey = none := hkey
  rw [step_decoded hrun (fetchesWord_iff.1 hfetch) hdec, exec_ldVxK_of_none x hadvanced, State.advance_rewind]

/-! ### The obligation -/

/-- Settles O51: the search for the lowest pressed key answers `some k` or `none` as the keys say, and the instruction is
one write to V[X], or the rewind of PC that undoes the fetch advance. -/
theorem waitForKeyLoadsTheLowestPressedKey : Obligations.WaitForKeyLoadsTheLowestPressedKey := by
  refine ⟨fun x s k hk hpressed hlower => ?_, fun x s hnone => ?_, fun x s w hrun hfetch hdec hnone => ?_⟩
  · exact ⟨_, exec_ldVxK_of_pressed x (State.lowestKey_eq_some hk hpressed hlower), s.setReg_ofNat_reg_toNat x hk,
      changesOnly_setReg s x _⟩
  · exact ⟨_, exec_ldVxK_of_none x (State.lowestKey_eq_none hnone), s.setPc_pc _, changesOnly_setPc s _⟩
  · exact step_ldVxK_of_none hrun hfetch hdec (State.lowestKey_eq_none hnone)

end Sys2Proof.Machine
end

section
/-!
Decoding and encoding (spec/30_encoding.md): each undoes the other, and both agree with R94's table of masks and R97's
table of illegal words.
-/

namespace Sys2Proof

/-! ### Every instruction has one word (R101) -/

theorem decode_encode (i : Instr) : decode (encode i) = some i := by
  cases i
  case nop | cls | ret => decide
  case jp | call | ldI | jpV0 => simp [encode, decode]
  case seByte | sneByte | ldByte | addByte | rnd => simp [encode, decode]
  case drw | seReg | sneReg => simp [encode, decode]
  case ldReg | orReg | andReg | xorReg | addReg | subReg | shr | subnReg | shl => simp [encode, decode, decodeD8]
  case skp | sknp => simp [encode, decode, decodeDE]
  all_goals simp [encode, decode, decodeDF]

theorem encodeA_of_fieldD1 {w : Word} {d : Nibble} (hd : fieldD1 w = d) : encodeA d (fieldNNN w) = w := by
  rw [← hd, encodeA_fields]

theorem encodeXK_of_fieldD1 {w : Word} {d : Nibble} (hd : fieldD1 w = d) : encodeXK d (fieldX w) (fieldNN w) = w := by
  rw [← hd, encodeXK_fields]

theorem encodeXK_of_fieldNN {w : Word} {d : Nibble} {kk : Byte} (hd : fieldD1 w = d) (hk : fieldNN w = kk) :
    encodeXK d (fieldX w) kk = w := by
  rw [← hk, encodeXK_of_fieldD1 hd]

theorem encodeXYN_of_fieldN {w : Word} {d n : Nibble} (hd : fieldD1 w = d) (hn : fieldN w = n) :
    encodeXYN d (fieldX w) (fieldY w) n = w := by
  rw [← hd, ← hn, encodeXYN_fields]

theorem encode_of_decodeD0 {w : Word} {i : Instr} (h : decodeD0 w = some i) : encode i = w := by
  unfold decodeD0 at h
  split_ifs at h with h0 h1 h2 <;> cases h
  · exact h0.symm
  · exact h1.symm
  · exact h2.symm

theorem encode_of_decodeD8 {w : Word} {i : Instr} (hd : fieldD1 w = 0x8)
    (h : decodeD8 (fieldN w) (fieldX w) (fieldY w) = some i) : encode i = w := by
  unfold decodeD8 at h
  split at h <;> cases h <;> exact encodeXYN_of_fieldN hd ‹_›

theorem encode_of_decodeDE {w : Word} {i : Instr} (hd : fieldD1 w = 0xE)
    (h : decodeDE (fieldNN w) (fieldX w) = some i) : encode i = w := by
  unfold decodeDE at h
  split at h <;> cases h <;> exact encodeXK_of_fieldNN hd ‹_›

theorem encode_of_decodeDF {w : Word} {i : Instr} (hd : fieldD1 w = 0xF)
    (h : decodeDF (fieldNN w) (fieldX w) = some i) : encode i = w := by
  unfold decodeDF at h
  split at h <;> cases h <;> exact encodeXK_of_fieldNN hd ‹_›

/-- By the arms of `decode`: each answers the instruction whose encoding puts the word's own fields together again. -/
theorem encode_of_decode {w : Word} {i : Instr} (h : decode w = some i) : encode i = w := by
  unfold decode at h
  split at h
  case h_1 hd => exact encode_of_decodeD0 h
  case h_9 hd => exact encode_of_decodeD8 hd h
  case h_15 hd => exact encode_of_decodeDE hd h
  case h_16 hd => exact encode_of_decodeDF hd h
  case h_6 hd | h_10 hd =>
    split_ifs at h with hn
    cases h
    exact encodeXYN_of_fieldN hd hn
  case h_14 hd => cases h; exact encodeXYN_of_fieldN hd rfl
  case h_2 hd | h_3 hd | h_11 hd | h_12 hd => cases h; exact encodeA_of_fieldD1 hd
  case h_4 hd | h_5 hd | h_7 hd | h_8 hd | h_13 hd => cases h; exact encodeXK_of_fieldD1 hd
  case h_17 => cases h

/-! ### The illegal words (R97) -/

theorem decodeD0_isSome (w : Word) : (decodeD0 w).isSome = legalD0 w := by
  unfold decodeD0 legalD0
  split_ifs <;> simp_all

theorem decodeD8_isSome (n : Nibble) (x y : Reg) : (decodeD8 n x y).isSome = legalD8 n := by
  have hregs : (decodeD8 n x y).isSome = (decodeD8 n 0 0).isSome := by
    unfold decodeD8
    split <;> rfl
  have hall : ∀ m : Nibble, (decodeD8 m 0 0).isSome = legalD8 m := by decide
  rw [hregs, hall]

theorem decodeDE_isSome (kk : Byte) (x : Reg) : (decodeDE kk x).isSome = legalDE kk := by
  unfold decodeDE legalDE
  split <;> simp_all

theorem decodeDF_isSome (kk : Byte) (x : Reg) : (decodeDF kk x).isSome = legalDF kk := by
  unfold decodeDF legalDF
  split <;> simp_all

theorem legalWord_fields (w : Word) : legalWord w =
    if fieldD1 w = 0x0 then legalD0 w
    else if fieldD1 w = 0x5 then legalXY0 (fieldN w)
    else if fieldD1 w = 0x8 then legalD8 (fieldN w)
    else if fieldD1 w = 0x9 then legalXY0 (fieldN w)
    else if fieldD1 w = 0xE then legalDE (fieldNN w)
    else if fieldD1 w = 0xF then legalDF (fieldNN w)
    else true := rfl

/-- A word is an instruction exactly when R97's table does not name it. -/
theorem decode_isSome (w : Word) : (decode w).isSome = legalWord w := by
  rw [legalWord_fields]
  unfold decode
  split
  case h_17 h0 h1 h2 h3 h4 h5 h6 h7 h8 h9 hA hB hC hD hE hF =>
    exfalso
    generalize fieldD1 w = d at *
    simp only [imp_false] at *
    bv_omega
  case h_6 hd | h_10 hd => by_cases hn : fieldN w = 0#4 <;> simp [hd, hn, legalXY0]
  all_goals rename_i hd; simp [hd, decodeD0_isSome, decodeD8_isSome, decodeDE_isSome, decodeDF_isSome]

/-! ### R94's table of match and mask -/

theorem encodeA_and_mask (d : Nibble) (nnn : Imm12) : encodeA d nnn &&& 0xF000 = encodeA d 0 := by
  show (d ++ nnn) &&& (BitVec.allOnes 4 ++ 0#12) = d ++ 0#12
  simp only [BitVec.and_append, BitVec.and_allOnes, BitVec.and_zero]

theorem encodeXK_and_maskD1 (d : Nibble) (x : Reg) (nn : Byte) : encodeXK d x nn &&& 0xF000 = encodeXK d 0 0 := by
  show (d ++ x ++ nn) &&& (BitVec.allOnes 4 ++ 0#4 ++ 0#8) = d ++ 0#4 ++ 0#8
  simp only [BitVec.and_append, BitVec.and_allOnes, BitVec.and_zero]

theorem encodeXK_and_mask (d : Nibble) (x : Reg) (nn : Byte) : encodeXK d x nn &&& 0xF0FF = encodeXK d 0 nn := by
  show (d ++ x ++ nn) &&& (BitVec.allOnes 4 ++ 0#4 ++ BitVec.allOnes 8) = d ++ 0#4 ++ nn
  simp only [BitVec.and_append, BitVec.and_allOnes, BitVec.and_zero]

theorem encodeXYN_and_maskD1 (d : Nibble) (x y : Reg) (n : Nibble) :
    encodeXYN d x y n &&& 0xF000 = encodeXYN d 0 0 0 := by
  show (d ++ x ++ y ++ n) &&& (BitVec.allOnes 4 ++ 0#4 ++ 0#4 ++ 0#4) = d ++ 0#4 ++ 0#4 ++ 0#4
  simp only [BitVec.and_append, BitVec.and_allOnes, BitVec.and_zero]

theorem encodeXYN_and_mask (d : Nibble) (x y : Reg) (n : Nibble) :
    encodeXYN d x y n &&& 0xF00F = encodeXYN d 0 0 n := by
  show (d ++ x ++ y ++ n) &&& (BitVec.allOnes 4 ++ 0#4 ++ 0#4 ++ BitVec.allOnes 4) = d ++ 0#4 ++ 0#4 ++ n
  simp only [BitVec.and_append, BitVec.and_allOnes, BitVec.and_zero]

/-- The word of every instruction matches a row with its mnemonic: the rows stand in the constructors' order. -/
theorem exists_row_of_instr (i : Instr) :
    ∃ r ∈ opcodeTable, r.mnemonic = i.mnemonic ∧ encode i &&& r.mask = r.bits := by
  have hlt : i.ctorIdx < opcodeTable.length := by
    cases i <;> simp [Instr.ctorIdx, opcodeTable, opcodeRows1, opcodeRows2, opcodeRows3]
  refine ⟨opcodeTable[i.ctorIdx], List.getElem_mem hlt, by cases i <;> rfl, ?_⟩
  cases i
  case nop | cls | ret => exact BitVec.and_allOnes (w := 16)
  case jp | call | ldI | jpV0 => exact encodeA_and_mask _ _
  case seByte | sneByte | ldByte | addByte | rnd => exact encodeXK_and_maskD1 _ _ _
  case drw => exact encodeXYN_and_maskD1 _ _ _ _
  case skp | sknp | ldVxDt | ldVxK | ldDtVx | ldStVx | addI | ldF | ldB | stRegs | ldRegs =>
    exact encodeXK_and_mask _ _ _
  all_goals exact encodeXYN_and_mask _ _ _ _

/-- Which fields a row's mask fixes, and that what it fixes them to is legal by R97. -/
abbrev OpcodeRow.FixesLegalFields (r : OpcodeRow) : Prop :=
  (r.mask = 0xFFFF ∧ legalWord r.bits = true) ∨
  (fieldD1 r.mask = 0xF ∧ fieldD1 r.bits ≠ 0x0 ∧ fieldD1 r.bits ≠ 0x5 ∧ fieldD1 r.bits ≠ 0x8 ∧ fieldD1 r.bits ≠ 0x9 ∧
    fieldD1 r.bits ≠ 0xE ∧ fieldD1 r.bits ≠ 0xF) ∨
  (fieldD1 r.mask = 0xF ∧ fieldN r.mask = 0xF ∧
    ((fieldD1 r.bits = 0x5 ∨ fieldD1 r.bits = 0x9) ∧ fieldN r.bits = 0 ∨
      fieldD1 r.bits = 0x8 ∧ legalD8 (fieldN r.bits) = true)) ∨
  (fieldD1 r.mask = 0xF ∧ fieldNN r.mask = 0xFF ∧
    (fieldD1 r.bits = 0xE ∧ legalDE (fieldNN r.bits) = true ∨ fieldD1 r.bits = 0xF ∧ legalDF (fieldNN r.bits) = true))

theorem opcodeTable_fixesLegalFields : ∀ r ∈ opcodeTable, r.FixesLegalFields := by decide

theorem fieldD1_of_and_mask {w m b : Word} (h : w &&& m = b) (hm : fieldD1 m = 0xF) : fieldD1 w = fieldD1 b := by
  have hfield : fieldD1 (w &&& m) = fieldD1 w &&& fieldD1 m := BitVec.extractLsb'_and
  rw [← h, hfield, hm]
  exact (BitVec.and_allOnes (w := 4)).symm

theorem fieldN_of_and_mask {w m b : Word} (h : w &&& m = b) (hm : fieldN m = 0xF) : fieldN w = fieldN b := by
  have hfield : fieldN (w &&& m) = fieldN w &&& fieldN m := BitVec.extractLsb'_and
  rw [← h, hfield, hm]
  exact (BitVec.and_allOnes (w := 4)).symm

theorem fieldNN_of_and_mask {w m b : Word} (h : w &&& m = b) (hm : fieldNN m = 0xFF) : fieldNN w = fieldNN b := by
  have hfield : fieldNN (w &&& m) = fieldNN w &&& fieldNN m := BitVec.extractLsb'_and
  rw [← h, hfield, hm]
  exact (BitVec.and_allOnes (w := 8)).symm

/-- A word that matches a row is legal: the row fixes every field that R97 looks at. -/
theorem legalWord_of_row {w : Word} {r : OpcodeRow} (hr : r ∈ opcodeTable) (hw : w &&& r.mask = r.bits) :
    legalWord w = true := by
  rcases opcodeTable_fixesLegalFields r hr with ⟨hm, hb⟩ | ⟨hd, hb⟩ | ⟨hd, hn, hb⟩ | ⟨hd, hn, hb⟩
  · rw [hm] at hw
    rw [← hb, ← hw]
    exact congrArg legalWord (BitVec.and_allOnes (w := 16)).symm
  · exact Laws.EncodeLegal.legal_of_d1 (fieldD1_of_and_mask hw hd) hb
  · exact Laws.EncodeLegal.legal_of_xyn (fieldD1_of_and_mask hw hd) (fieldN_of_and_mask hw hn) hb
  · exact Laws.EncodeLegal.legal_of_xk (fieldD1_of_and_mask hw hd) (fieldNN_of_and_mask hw hn) hb

/-- R96: no word matches two rows, for they differ in a bit that both masks fix. -/
theorem row_unique_of_word {w : Word} {r q : OpcodeRow} (hr : r ∈ opcodeTable) (hq : q ∈ opcodeTable)
    (hwr : w &&& r.mask = r.bits) (hwq : w &&& q.mask = q.bits) : r = q := by
  have hdisjoint : ∀ r ∈ opcodeTable, ∀ q ∈ opcodeTable,
      r.bits &&& (r.mask &&& q.mask) = q.bits &&& (r.mask &&& q.mask) → r = q := by decide
  refine hdisjoint r hr q hq ?_
  rw [← hwr, ← hwq]
  ext k
  simp only [BitVec.getElem_and]
  cases w[k] <;> cases r.mask[k] <;> cases q.mask[k] <;> rfl

theorem row_unique_of_mnemonic {r q : OpcodeRow} (hr : r ∈ opcodeTable) (hq : q ∈ opcodeTable)
    (h : r.mnemonic = q.mnemonic) : r = q := by
  have hdistinct : ∀ r ∈ opcodeTable, ∀ q ∈ opcodeTable, r.mnemonic = q.mnemonic → r = q := by decide
  exact hdistinct r hr q hq h

/-! ### The obligations -/

/-- Settles O1: the listed words are closed, and the decoder computes. -/
theorem wordsFromTheSpecDecodeToTheirInstructions : Obligations.WordsFromTheSpecDecodeToTheirInstructions := by
  refine ⟨?_, ?_, ?_, ?_, ?_, ?_, ?_, ?_, ?_, ?_, ?_, ?_, rfl⟩ <;> decide

/-- Settles O2, by the formats of the instructions: the fields of an encoded word are its operands. -/
theorem decodeOfEncodeIsTheInstruction : Obligations.DecodeOfEncodeIsTheInstruction := decode_encode

/-- Settles O3, by the arms of the decoder. -/
theorem encodeOfDecodeIsTheWord : Obligations.EncodeOfDecodeIsTheWord := fun _ _ h => encode_of_decode h

/-- Settles O4: a word that matches a row is legal, so it decodes; the row of what it decodes to is the only one that it
matches, and the only one with its mnemonic. -/
theorem decodeFollowsTheOpcodeTable : Obligations.DecodeFollowsTheOpcodeTable := by
  intro w r hr
  constructor
  · intro hw
    obtain ⟨i, hi⟩ := Option.isSome_iff_exists.1 ((decode_isSome w).trans (legalWord_of_row hr hw))
    obtain ⟨q, hq, hmn, henc⟩ := exists_row_of_instr i
    rw [encode_of_decode hi] at henc
    obtain rfl := row_unique_of_word hr hq hw henc
    exact ⟨i, hi, hmn.symm⟩
  · rintro ⟨i, hi, hmn⟩
    obtain ⟨q, hq, hqmn, henc⟩ := exists_row_of_instr i
    rw [encode_of_decode hi] at henc
    obtain rfl := row_unique_of_mnemonic hr hq (hmn.symm.trans hqmn.symm)
    exact henc

/-- Settles O5: the decoder answers an instruction exactly on the legal words. -/
theorem illegalWordsAreExactlyTheListedOnes : Obligations.IllegalWordsAreExactlyTheListedOnes := fun w => by
  rw [← decode_isSome w, Option.isSome_eq_false_iff, Option.isNone_iff_eq_none]

end Sys2Proof
end

section
/-!
The step's outcomes: no step stops the model, the faults of fetch and decode, and what a step that answers a state has
done (spec/30_encoding.md R95; spec/60_exceptions.md R222, R224).
-/

namespace Sys2Proof.Machine

/-! ### Every instruction, step and transaction answers a next state -/

theorem exec_isNext (i : Instr) (s : State) : ∃ t, exec i s = .next t := by
  cases i
  case ret | call | drw | skp | sknp | ldB | stRegs | ldRegs => exact s.finish_isNext _ _
  case ldVxK x =>
    cases hkey : s.lowestKey with
    | none => exact ⟨_, exec_ldVxK_of_none x hkey⟩
    | some k => exact ⟨_, exec_ldVxK_of_pressed x hkey⟩
  all_goals exact ⟨_, rfl⟩

theorem step_isNext (s : State) : ∃ t, step s = .next t := by
  rcases step_cases s with ⟨-, h⟩ | ⟨-, f, -, h⟩ | ⟨-, w, -, -, h⟩ | ⟨-, w, i, -, -, h⟩
  · exact ⟨_, h⟩
  · exact ⟨_, h⟩
  · exact ⟨_, h⟩
  · rw [h]
    exact exec_isNext i s.advance

/-- The STEP transaction is the step on its input, with the draws put back (R45). -/
theorem transact_step {s t : State} {r : Byte} (h : step (s.setRnd r s.draws) = .next t) :
    transact (.step r) s = .next (t.setRnd s.rnd s.draws, .ok) := by
  simp only [transact, stepWith, h]

theorem transact_isNext (tr : Transaction) (s : State) : ∃ t a, transact tr s = .next (t, a) := by
  cases tr
  case step r =>
    obtain ⟨t, h⟩ := step_isNext (s.setRnd r s.draws)
    exact ⟨_, _, transact_step h⟩
  case key index pressed =>
    by_cases hi : index.toNat < 16
    · exact ⟨_, _, if_pos hi⟩
    · exact ⟨_, _, if_neg hi⟩
  case load bytes =>
    by_cases hl : bytes.length ≤ 3584
    · exact ⟨_, _, if_pos hl⟩
    · exact ⟨_, _, if_neg hl⟩
  all_goals exact ⟨_, _, rfl⟩

/-! ### The faults of fetch and decode -/

theorem step_fetchFault {s : State} {f : Fault} (h : s.latch.halted = false) (hf : s.fetch = .error f) :
    step s = .next (s.takeFault f s.pc 0) := by simp [step, h, hf]

theorem step_undecoded {s : State} {w : Word} (h : s.latch.halted = false) (hf : s.fetch = .ok w)
    (hd : decode w = none) : step s = .next (s.takeFault .illegalInstruction s.pc w) := by simp [step, h, hf, hd]

/-- A fetch that is not wholly in memory raises at the first of PC and PC+1 that is outside (R68, R227). -/
theorem State.fetch_outside {s : State} (ho : s.cfg.oob = .fault) (hpc : 4095 ≤ s.pc.toNat) :
    s.fetch = .error (.memoryBounds (max s.pc.toNat 4096)) := by
  cases hf : s.fetch with
  | error f =>
    obtain ⟨-, -, rfl⟩ := State.fetch_error hf
    congr 2
    split_ifs <;> omega
  | ok w =>
    obtain ⟨-, b, -, hb, -⟩ := State.fetch_ok hf
    obtain ⟨-, -, hlt | hwrap⟩ := memAddr_ok hb
    · omega
    · cases ho.symm.trans hwrap

theorem State.fetch_inside {s : State} (h : s.cfg.oob = .wrap ∨ s.pc.toNat < 4095) : ∃ w, s.fetch = .ok w := by
  cases hf : s.fetch with
  | ok w => exact ⟨w, rfl⟩
  | error f =>
    obtain ⟨ho, hpc, -⟩ := State.fetch_error hf
    rcases h with hwrap | hlt
    · cases ho.symm.trans hwrap
    · omega

/-! ### What a step has done -/

/-- The faults a step can take, each with the word it records (R220, R222). -/
def StepRaises (s : State) (f : Fault) (w : Word) : Prop :=
  (s.fetch = .error f ∧ w = 0) ∨ (f = .illegalInstruction ∧ s.fetch = .ok w ∧ decode w = none) ∨
  ∃ i, s.fetch = .ok w ∧ decode w = some i ∧ RaisedBy i s f

/-- The step of `s` ran the instruction `i` to its end, which left `t`. -/
structure StepCompletes (s : State) (i : Instr) (t : State) : Prop where
  running : s.latch.halted = false
  fetched : ∃ w, s.fetch = .ok w ∧ decode w = some i
  answered : exec i s.advance = .next t
  frame : ChangesOnly (partsWritten i) s.advance t

/-- A fault inside an instruction is recorded at the address of the instruction, before the fetch advance (R27). -/
theorem State.advance_raise (s : State) (i : Instr) (f : Fault) :
    s.advance.raise i f = s.takeFault f s.pc (encode i) := by
  unfold State.raise
  rw [State.advance_pc, BitVec.add_sub_cancel]
  rfl

/-- The three ways a step goes: a halted core stays, a fault is taken, or the instruction completes within its frame. -/
theorem step_next {s t : State} (h : step s = .next t) :
    (s.latch.halted = true ∧ t = s) ∨
    (s.latch.halted = false ∧ ∃ f w, StepRaises s f w ∧ t = s.takeFault f s.pc w) ∨ ∃ i, StepCompletes s i t := by
  rcases step_cases s with ⟨hh, hs⟩ | ⟨hh, f, hf, hs⟩ | ⟨hh, w, hf, hd, hs⟩ | ⟨hh, w, i, hf, hd, hs⟩ <;>
    rw [hs] at h
  · cases h
    exact .inl ⟨hh, rfl⟩
  · cases h
    exact .inr (.inl ⟨hh, f, 0, .inl ⟨hf, rfl⟩, rfl⟩)
  · cases h
    exact .inr (.inl ⟨hh, _, w, .inr (.inl ⟨rfl, hf, hd⟩), rfl⟩)
  · rcases exec_cases h with hframe | ⟨f, rfl, -, hf'⟩
    · exact .inr (.inr ⟨i, hh, ⟨w, hf, hd⟩, h, hframe⟩)
    · refine .inr (.inl ⟨hh, f, w, .inr (.inr ⟨i, hf, hd, hf'⟩), ?_⟩)
      rw [State.advance_raise, encode_of_decode hd]

theorem latch_notMem_partsWritten (i : Instr) : Part.latch ∉ partsWritten i := by
  cases i <;> simp [partsWritten, allRegs]

theorem StepCompletes.latch {s t : State} {i : Instr} (h : StepCompletes s i t) : t.latch = s.latch :=
  h.frame.latch (latch_notMem_partsWritten i)

theorem takeFault_not_running (s : State) (f : Fault) (a w : Word) : ¬ Running (s.takeFault f a w) := by
  simp [Running, State.takeFault]

theorem Fault.code_bounds (f : Fault) : 1 ≤ f.code.toNat ∧ f.code.toNat ≤ 6 := by
  cases f <;> simp [Fault.code]

theorem faultTaken_self (s : State) (f : Fault) (a w : Word) :
    FaultTaken f.code a w f.info.toNat s (s.takeFault f a w) :=
  faultTaken_takeFault s f a w rfl (by rw [BitVec.ofNat_toNat, BitVec.setWidth_eq])

/-! ### The obligations -/

/-- Settles O7: the input of the STEP stands in the draws alone, and the transaction puts them back. -/
theorem haltedStepChangesNothing : Obligations.HaltedStepChangesNothing := fun s hh =>
  ⟨step_halted hh, fun r => transact_step (t := s.setRnd r s.draws) (step_halted hh)⟩

/-- Settles O8: the fault of decode, with the record that taking a fault leaves. -/
theorem illegalWordHaltsTheCore : Obligations.IllegalWordHaltsTheCore := fun s w hrun hfetch hd =>
  ⟨_, step_undecoded hrun (fetchesWord_iff.1 hfetch) hd, faultTaken_takeFault s .illegalInstruction s.pc w rfl rfl⟩

/-- Settles O9: the fetch raises at the first of PC and PC+1 outside memory, and with both inside it answers a word. -/
theorem fetchFaultsExactlyOutsideMemory : Obligations.FetchFaultsExactlyOutsideMemory := by
  refine ⟨fun s hrun ho hpc => ?_, fun s h => ?_⟩
  · exact ⟨_, step_fetchFault hrun (State.fetch_outside ho hpc), faultTaken_takeFault s _ s.pc 0 rfl rfl⟩
  · obtain ⟨w, hw⟩ := State.fetch_inside h
    exact ⟨w, fetchesWord_iff.2 hw⟩

/-- Settles O10: a halted core stays, a fault is a next state, and every instruction answers one. -/
theorem everyStepAnswersANextState : Obligations.EveryStepAnswersANextState := ⟨step_isNext, transact_isNext⟩

/-- Settles O11: of the three ways a step goes only a fault halts a running core, since an instruction that completes
leaves the latch. -/
theorem faultsArePrecise : Obligations.FaultsArePrecise := by
  intro s t hrun h hhalt
  rcases step_next h with ⟨-, rfl⟩ | ⟨-, f, w, -, rfl⟩ | ⟨i, hi⟩
  · exact absurd hrun hhalt
  · obtain ⟨h1, h6⟩ := f.code_bounds
    exact ⟨_, w, _, h1, h6, faultTaken_self s f s.pc w⟩
  · exact absurd (show t.latch.halted = false by rw [hi.latch]; exact hrun) hhalt

end Sys2Proof.Machine
end

section
/-!
Reset and the invariant (spec/10_state.md R46; spec/20_memory.md R64; spec/60_exceptions.md R222).
-/

namespace Sys2Proof.Machine

/-! ### The state after reset -/

/-- Memory lists nothing after reset, so every address reads as unlisted. -/
theorem byteAt_resetWith (cfg : Config) (a : Nat) :
    (State.resetWith cfg).byteAt a = Memory.unlisted cfg.fontRom a := rfl

theorem reg_resetWith (cfg : Config) (r : Reg) : (State.resetWith cfg).reg r = 0 := by
  simp [State.reg, State.resetWith]

theorem keyAt_resetWith (cfg : Config) {k : Nat} (hk : k < 16) : (State.resetWith cfg).keyAt k = false := by
  simp [State.keyAt, State.resetWith, hk]

theorem stack_resetWith (cfg : Config) {k : Nat} (hk : k < 16) : (State.resetWith cfg).stack[k] = 0 := by
  simp [State.resetWith]

theorem inv_resetWith (cfg : Config) : Inv (State.resetWith cfg) where
  canonical := rfl
  font := fun _ a ha => (byteAt_resetWith cfg a).trans (dif_pos ha)
  latch := rfl

/-! ### What an instruction does to memory -/

theorem exec_canonical {i : Instr} {s t : State} (h : exec i s = .next t) (hs : MemCanonical s) : MemCanonical t := by
  unfold MemCanonical
  rw [exec_cfg h]
  rcases exec_memory h with hmem | ⟨-, bs, hbs⟩
  · rw [hmem]
    exact hs
  · obtain ⟨-, hwf, -⟩ := State.writeBytes_ok hbs
    exact hwf hs

/-- Under FONT_WRITE_POLICY = Fault no store goes to an address below 80 (R64). -/
theorem exec_fontRegion {i : Instr} {s t : State} (h : exec i s = .next t) (hw : s.cfg.fontWrite = .fault) {a : Nat}
    (ha : a < 80) : t.byteAt a = s.byteAt a := by
  rcases exec_memory h with hmem | ⟨-, bs, hbs⟩
  · simp only [State.byteAt, hmem, exec_cfg h]
  · obtain ⟨-, -, -, hother⟩ := State.writeBytes_ok hbs
    refine hother a fun k _ hstore => ?_
    obtain ⟨-, -, habove | hwrite⟩ := storeAddr_ok hstore
    · omega
    · cases hw.symm.trans hwrite

theorem step_fontRegion {s t : State} (h : step s = .next t) (hw : s.cfg.fontWrite = .fault) {a : Nat} (ha : a < 80) :
    t.byteAt a = s.byteAt a := by
  rcases step_next h with ⟨-, rfl⟩ | ⟨-, f, w, -, rfl⟩ | ⟨i, hi⟩
  · rfl
  · rfl
  · exact exec_fontRegion hi.answered hw ha

theorem exec_fontIntact {i : Instr} {s t : State} (h : exec i s = .next t) (hs : FontIntact s) : FontIntact t := by
  intro hw a ha
  simp only [exec_cfg h] at hw ⊢
  rw [exec_fontRegion h hw ha, hs hw a ha]

/-! ### The record of a fault agrees with the state -/

theorem Fault.memoryBounds_info {a : Nat} (ha : a < 2 ^ 17) : (Fault.memoryBounds a).info.toNat = a := by
  rw [Fault.info, BitVec.toNat_ofNat, Nat.mod_eq_of_lt ha]

theorem Fault.fontWrite_info {a : Nat} (ha : a < 80) : (Fault.fontWrite a).info.toNat = a := by
  rw [Fault.info, BitVec.toNat_ofNat, Nat.mod_eq_of_lt (by omega)]

theorem Fault.keyIndex_info (v : Byte) : (Fault.keyIndex v).info.toNat = v.toNat :=
  BitVec.toNat_setWidth_of_le (by decide)

/-- By the kinds of fault a step takes: what it records is what R220 says of its cause. -/
theorem causeSound_takeFault {s : State} {f : Fault} {w : Word} (h : StepRaises s f w) (a : Word) :
    CauseSound (s.takeFault f a w) := by
  unfold CauseSound
  rcases h with ⟨hf, -⟩ | ⟨rfl, -, hd⟩ | ⟨i, -, hd, hi⟩
  · obtain ⟨ho, hpc, rfl⟩ := State.fetch_error hf
    refine .inr (.inr (.inr (.inl ⟨rfl, ho, ?_⟩)))
    show 4096 ≤ (Fault.memoryBounds _).info.toNat
    have hlt := s.pc.isLt
    rw [Fault.memoryBounds_info] <;> split_ifs <;> omega
  · exact .inl ⟨rfl, hd, rfl⟩
  · rcases hi with ⟨rfl, hsp, nnn, rfl⟩ | ⟨rfl, hsp, rfl⟩ | ⟨b, rfl, ho, hb, hlt⟩ | ⟨b, rfl, hw, hb⟩ | ⟨v, rfl, hk, hv⟩
    · exact .inr (.inl ⟨rfl, hsp, ⟨nnn, hd⟩, rfl⟩)
    · exact .inr (.inr (.inl ⟨rfl, hsp, (encode_of_decode hd).symm, rfl⟩))
    · exact .inr (.inr (.inr (.inl ⟨rfl, ho, (Fault.memoryBounds_info hlt).symm ▸ hb⟩)))
    · exact .inr (.inr (.inr (.inr (.inl ⟨rfl, hw, (Fault.fontWrite_info hb).symm ▸ hb⟩))))
    · refine .inr (.inr (.inr (.inr (.inr ⟨rfl, hk, ?_⟩))))
      show 16 ≤ (Fault.keyIndex v).info.toNat ∧ (Fault.keyIndex v).info.toNat < 256
      rw [Fault.keyIndex_info]
      exact ⟨hv, v.isLt⟩

/-! ### The invariant is kept -/

/-- The invariant looks at memory, the parameters, PC, SP and the latch alone. -/
theorem Inv.congr {s t : State} (hs : Inv s) (hcfg : t.cfg = s.cfg) (hmem : t.mem = s.mem) (hpc : t.pc = s.pc)
    (hsp : t.sp = s.sp) (hlatch : t.latch = s.latch) : Inv t where
  canonical := by
    unfold MemCanonical
    rw [hcfg, hmem]
    exact hs.canonical
  font := by
    unfold FontIntact State.byteAt
    rw [hcfg, hmem]
    exact hs.font
  latch := by
    unfold LatchSound CauseSound
    rw [hcfg, hpc, hsp, hlatch]
    exact hs.latch

theorem inv_takeFault {s : State} {f : Fault} {w : Word} (hs : Inv s) (h : StepRaises s f w) (a : Word) :
    Inv (s.takeFault f a w) where
  canonical := hs.canonical
  font := hs.font
  latch := ⟨rfl, causeSound_takeFault h a⟩

theorem latchSound_of_running {s : State} (hs : LatchSound s) (hrun : s.latch.halted = false) :
    s.latch = FaultLatch.clear := by
  simpa [LatchSound, hrun] using hs

theorem StepCompletes.inv {s t : State} {i : Instr} (h : StepCompletes s i t) (hs : Inv s) : Inv t where
  canonical := exec_canonical h.answered hs.canonical
  font := exec_fontIntact h.answered hs.font
  latch := by
    have hclear : t.latch = FaultLatch.clear := h.latch.trans (latchSound_of_running hs.latch h.running)
    simp [LatchSound, hclear, FaultLatch.clear]

theorem step_inv {s t : State} (hs : Inv s) (h : step s = .next t) : Inv t := by
  rcases step_next h with ⟨-, rfl⟩ | ⟨-, f, w, hf, rfl⟩ | ⟨i, hi⟩
  · exact hs
  · exact inv_takeFault hs hf s.pc
  · exact hi.inv hs

/-- LOAD writes from 0x200 on, above the font and inside memory (R70). -/
theorem inv_load {s : State} {bytes : List Byte} (hs : Inv s) (hl : bytes.length ≤ 3584) : Inv (s.load bytes) where
  canonical := Memory.wf_writeAll _ bytes s.mem 0x200 (by omega) hs.canonical
  font := fun hw a ha => by
    refine (Memory.read_writeAll _ bytes s.mem 0x200 a).trans ?_
    rw [if_neg (by omega)]
    exact hs.font hw a ha
  latch := hs.latch

theorem inv_setRnd {s : State} (hs : Inv s) (r : Byte) (n : Nat) : Inv (s.setRnd r n) :=
  hs.congr rfl rfl rfl rfl rfl

theorem inv_setKey {s : State} (hs : Inv s) (k : Nat) (pressed : Bool) : Inv (s.setKey k pressed) := by
  unfold State.setKey
  split
  · exact hs.congr rfl rfl rfl rfl rfl
  · exact hs

/-! ### The obligations -/

/-- Settles O12: element by element on the reset state; memory lists nothing, so it reads as the font and zeros. -/
theorem resetLeavesTheListedValues : Obligations.ResetLeavesTheListedValues := by
  intro s
  refine ⟨State.resetWith s.cfg, rfl, fun a ha => ?_, fun a ha _ => ?_, rfl, reg_resetWith s.cfg, rfl,
    fun k hk => stack_resetWith s.cfg hk, rfl, rfl, rfl, fun k hk => keyAt_resetWith s.cfg hk,
    fun p _ => pixel_fbClear p, rfl, rfl, rfl, rfl, rfl, fun hcfg => by rw [hcfg]; rfl⟩
  · exact (byteAt_resetWith s.cfg a).trans (dif_pos ha)
  · exact (byteAt_resetWith s.cfg a).trans (dif_neg (by omega))

/-- Settles O13: the reset state meets it for every setting of the parameters. -/
theorem resetMeetsTheInvariant : Obligations.ResetMeetsTheInvariant := ⟨inv_resetWith Config.default, inv_resetWith⟩

/-- Settles O14, by the three ways a step goes. -/
theorem stepKeepsTheInvariant : Obligations.StepKeepsTheInvariant := fun _ _ hs h => step_inv hs h

/-- Settles O15: STEP by the step, LOAD by what it writes, RESET by the reset state; the other transactions change no
part that the invariant looks at. -/
theorem transactionsKeepTheInvariant : Obligations.TransactionsKeepTheInvariant := by
  intro tr s t a hs h
  cases tr
  case step r =>
    obtain ⟨u, hu⟩ := step_isNext (s.setRnd r s.draws)
    cases (transact_step hu).symm.trans h
    exact inv_setRnd (step_inv (inv_setRnd hs r s.draws) hu) s.rnd s.draws
  case key index pressed =>
    simp only [transact] at h
    split at h <;> cases h
    · exact inv_setKey hs index.toNat pressed
    · exact hs
  case load bytes =>
    simp only [transact] at h
    split at h <;> cases h
    · exact inv_load hs ‹_›
    · exact hs
  case reset => cases h; exact inv_resetWith s.cfg
  case tick => cases h; exact hs.congr rfl rfl rfl rfl rfl
  case readDisplay | readStatus => cases h; exact hs

/-- Settles O16: no store goes into the font region, and a step that faults stores nothing. -/
theorem stepsLeaveTheFontRegionUnderTheFaultPolicy : Obligations.StepsLeaveTheFontRegionUnderTheFaultPolicy :=
  fun _ _ hw h _ ha => step_fontRegion h hw ha

end Sys2Proof.Machine
end

section
/-!
CALL and RET (spec/40_control_flow.md R112, R114; spec/10_state.md R32).
-/

namespace Sys2Proof.Machine

/-! ### Push and pop -/

theorem State.push_of_lt {s : State} (h : s.sp.val < 16) (r : Word) :
    s.push r = .ok (s.setStack (s.stack.set s.sp.val r) ⟨s.sp.val + 1, by omega⟩) := dif_pos h

theorem State.push_of_full {s : State} (h : s.sp = 16) (r : Word) : s.push r = .error .stackOverflow :=
  dif_neg (by rw [h]; decide)

theorem State.pop_of_succ {s : State} {k : Nat} (hk : k < 16) (h : s.sp.val = k + 1) :
    s.pop = .ok (s.stack[k], s.setStack s.stack ⟨k, by omega⟩) := by
  simp only [State.pop, h, Nat.add_sub_cancel, Nat.succ_pos, dif_pos]

theorem State.pop_of_empty {s : State} (h : s.sp = 0) : s.pop = .error .stackUnderflow :=
  dif_neg (by rw [h]; decide)

/-! ### What each instruction answers -/

theorem exec_ret_of_ok {s u : State} {a : Word} (h : s.pop = .ok (a, u)) : exec .ret s = .next (u.setPc a) := by
  simp only [exec, execRet, h, State.finish]

theorem exec_ret_of_error {s : State} {f : Fault} (h : s.pop = .error f) : exec .ret s = .next (s.raise .ret f) := by
  simp only [exec, execRet, h, State.finish]

theorem exec_call_of_ok {s u : State} (nnn : Imm12) (h : s.push s.pc = .ok u) :
    exec (.call nnn) s = .next (u.setPc (zextAddr nnn)) := by
  simp only [exec, execCall, h, State.finish]

theorem exec_call_of_error {s : State} {f : Fault} (nnn : Imm12) (h : s.push s.pc = .error f) :
    exec (.call nnn) s = .next (s.raise (.call nnn) f) := by
  simp only [exec, execCall, h, State.finish]

/-- A write of the stack and then a jump change those two parts alone. -/
theorem changesOnly_setStack_setPc (s : State) (k : Vector Word 16) (n : Fin 17) (a : Word) :
    ChangesOnly [.pc, .stack] s ((s.setStack k n).setPc a) :=
  ((changesOnly_setStack s k n).mono (by simp)).trans ((changesOnly_setPc _ a).mono (by simp))

/-- The record of a fault that an instruction raises (R222), at its own address and with its own word. -/
theorem faultTaken_raise (s : State) (i : Instr) (f : Fault) {cause : BitVec 3} {info : Nat} (hc : f.code = cause)
    (hi : f.info = BitVec.ofNat 17 info) : FaultTaken cause (s.pc - 2) (encode i) info s (s.raise i f) :=
  faultTaken_takeFault s f (s.pc - 2) (encode i) hc hi

/-! ### The obligations -/

/-- Settles O24: with SP = k + 1 the pop answers entry k, and leaves the stack. -/
theorem returnPopsIntoTheProgramCounter : Obligations.ReturnPopsIntoTheProgramCounter := fun s _ hk hsp =>
  ⟨_, exec_ret_of_ok (State.pop_of_succ hk hsp), rfl, rfl, rfl, changesOnly_setStack_setPc s _ _ _⟩

/-- Settles O25: with SP < 16 the push writes the entry SP, and the jump leaves it. -/
theorem callPushesAndJumps : Obligations.CallPushesAndJumps := by
  intro s nnn hsp
  refine ⟨_, exec_call_of_ok nnn (State.push_of_lt hsp s.pc), rfl, zextAddr_toNat nnn, fun k hk => ?_,
    changesOnly_setStack_setPc s _ _ _⟩
  simp only [State.setPc_stack, State.setStack_stack, Vector.getElem_set, eq_comm]

/-- Settles O26: the push of a full stack and the pop of an empty one raise. -/
theorem stackFaults : Obligations.StackFaults :=
  ⟨fun s nnn hsp => ⟨_, exec_call_of_error nnn (State.push_of_full hsp s.pc), faultTaken_raise s _ _ rfl rfl⟩,
    fun s hsp => ⟨_, exec_ret_of_error (State.pop_of_empty hsp), faultTaken_raise s .ret _ rfl rfl⟩⟩

/-- Settles O27: RET pops the entry that CALL has just pushed, and PC has no part in either. -/
theorem returnAfterCallContinuesAfterIt : Obligations.ReturnAfterCallContinuesAfterIt := by
  intro s nnn hsp
  refine ⟨_, exec_call_of_ok nnn (State.push_of_lt hsp s.pc), fun p => ?_⟩
  exact ⟨_, exec_ret_of_ok (State.pop_of_succ hsp rfl), by simp, rfl⟩

end Sys2Proof.Machine
end

section
/-!
The ALU instructions with two registers and the random instruction (spec/41_alu.md).
-/

namespace Sys2Proof.Machine

/-! ### What each instruction answers -/

theorem exec_orReg (x y : Reg) (s : State) : exec (.orReg x y) s = .next (s.setReg x (s.reg x ||| s.reg y)) := rfl

theorem exec_andReg (x y : Reg) (s : State) : exec (.andReg x y) s = .next (s.setReg x (s.reg x &&& s.reg y)) := rfl

theorem exec_xorReg (x y : Reg) (s : State) : exec (.xorReg x y) s = .next (s.setReg x (s.reg x ^^^ s.reg y)) := rfl

theorem exec_addReg (x y : Reg) (s : State) :
    exec (.addReg x y) s = .next (s.setRegFlag x (s.reg x + s.reg y) (carryFlag (s.reg x) (s.reg y))) := rfl

theorem exec_subReg (x y : Reg) (s : State) :
    exec (.subReg x y) s = .next (s.setRegFlag x (s.reg x - s.reg y) (noBorrowFlag (s.reg x) (s.reg y))) := rfl

theorem exec_subnReg (x y : Reg) (s : State) :
    exec (.subnReg x y) s = .next (s.setRegFlag x (s.reg y - s.reg x) (noBorrowFlag (s.reg y) (s.reg x))) := rfl

theorem exec_shr (x y : Reg) (s : State) :
    exec (.shr x y) s = .next (s.setRegFlag x (s.reg x >>> 1) (shiftedOutRight (s.reg x))) := rfl

theorem exec_shl (x y : Reg) (s : State) :
    exec (.shl x y) s = .next (s.setRegFlag x (s.reg x <<< 1) (shiftedOutLeft (s.reg x))) := rfl

theorem exec_rnd (x : Reg) (nn : Byte) (s : State) :
    exec (.rnd x nn) s = .next ((s.setReg x (s.rnd &&& nn)).nextDraw) := rfl

/-! ### Results and flags as numbers -/

theorem carryFlag_eq (a b : Byte) : carryFlag a b = if 256 ≤ a.toNat + b.toNat then 1 else 0 := by
  simp [carryFlag, flagByte]

theorem noBorrowFlag_eq (a b : Byte) : noBorrowFlag a b = if b.toNat ≤ a.toNat then 1 else 0 := by
  simp [noBorrowFlag, flagByte]

theorem byte_sub_toNat (a b : Byte) : (a - b).toNat = (256 + a.toNat - b.toNat) % 256 := by
  have hb := b.isLt
  rw [BitVec.toNat_sub]
  omega

theorem shiftRight_one_toNat (a : Byte) : (a >>> 1).toNat = a.toNat / 2 := by
  rw [BitVec.toNat_ushiftRight, Nat.shiftRight_eq_div_pow]

theorem shiftLeft_one_toNat (a : Byte) : (a <<< 1).toNat = a.toNat * 2 % 256 := by
  rw [BitVec.toNat_shiftLeft, Nat.shiftLeft_eq]

theorem shiftedOutRight_toNat (a : Byte) : (shiftedOutRight a).toNat = a.toNat % 2 := by
  rw [shiftedOutRight, BitVec.toNat_and]
  exact Nat.and_one_is_mod a.toNat

theorem shiftedOutLeft_toNat (a : Byte) : (shiftedOutLeft a).toNat = a.toNat / 128 := by
  rw [shiftedOutLeft, BitVec.toNat_ushiftRight, Nat.shiftRight_eq_div_pow]

theorem State.setRegFlag_result_toNat (s : State) {x : Reg} {r : Byte} {n : Nat} (f : Byte) (hr : r.toNat = n) :
    x ≠ VF → ((s.setRegFlag x r f).reg x).toNat = n := fun hx => by
  rw [State.setRegFlag_reg_result s r f hx, hr]

/-- The bits of the register just written. -/
theorem State.setReg_reg_getLsbD (s : State) (x : Reg) (b : Byte) (k : Nat) :
    ((s.setReg x b).reg x).getLsbD k = b.getLsbD k := by
  rw [State.setReg_reg_same]

theorem changesOnly_nextDraw (s : State) : ChangesOnly [.draws] s s.nextDraw := changesOnly_setRnd s _ _

/-! ### The STEP transaction at a random instruction -/

/-- The draw is the STEP's own input, and the transaction puts the model's draws back (R45). -/
theorem transact_step_rnd {s : State} {w : Word} {x : Reg} {nn : Byte} (r : Byte) (hrun : Running s)
    (hfetch : s.fetch = .ok w) (hdec : decode w = some (.rnd x nn)) :
    transact (.step r) s = .next (s.advance.setReg x (r &&& nn), .ok) :=
  transact_step (t := ((s.setRnd r s.draws).advance.setReg x (r &&& nn)).nextDraw)
    (step_decoded (s := s.setRnd r s.draws) hrun hfetch hdec)

/-! ### The obligations -/

/-- Settles O32: each is one write to V[X], and bit k of the result is that of the operands' bits k. -/
theorem logicWritesOneRegisterBitByBit : Obligations.LogicWritesOneRegisterBitByBit := fun x y s =>
  ⟨⟨_, exec_orReg x y s, fun k _ => (s.setReg_reg_getLsbD x _ k).trans BitVec.getLsbD_or, changesOnly_setReg s x _⟩,
    ⟨_, exec_andReg x y s, fun k _ => (s.setReg_reg_getLsbD x _ k).trans BitVec.getLsbD_and, changesOnly_setReg s x _⟩,
    ⟨_, exec_xorReg x y s, fun k _ => (s.setReg_reg_getLsbD x _ k).trans BitVec.getLsbD_xor, changesOnly_setReg s x _⟩⟩

/-- Settles O33: VF is written last, so the carry stands there, and V[X] keeps the sum unless it is VF. -/
theorem addWritesTheSumAndThenTheCarry : Obligations.AddWritesTheSumAndThenTheCarry := fun x y s =>
  ⟨_, exec_addReg x y s, s.setRegFlag_result_toNat _ (BitVec.toNat_add _ _),
    (s.setRegFlag_reg_vf x _ _).trans (carryFlag_eq _ _), changesOnly_setRegFlag s x _ _⟩

/-- Settles O34: VF is written last, so the flag stands there, and V[X] keeps the difference unless it is VF. -/
theorem subtractionsWriteTheDifferenceAndThenNoBorrow : Obligations.SubtractionsWriteTheDifferenceAndThenNoBorrow :=
  fun x y s =>
  ⟨⟨_, exec_subReg x y s, s.setRegFlag_result_toNat _ (byte_sub_toNat _ _),
      (s.setRegFlag_reg_vf x _ _).trans (noBorrowFlag_eq _ _), changesOnly_setRegFlag s x _ _⟩,
    ⟨_, exec_subnReg x y s, s.setRegFlag_result_toNat _ (byte_sub_toNat _ _),
      (s.setRegFlag_reg_vf x _ _).trans (noBorrowFlag_eq _ _), changesOnly_setRegFlag s x _ _⟩⟩

/-- Settles O35: VF is written last, so the bit shifted out stands there, and V[X] keeps the result unless it is VF. -/
theorem shiftsWriteTheResultAndThenTheBitShiftedOut : Obligations.ShiftsWriteTheResultAndThenTheBitShiftedOut :=
  fun x y s =>
  ⟨⟨_, exec_shr x y s, s.setRegFlag_result_toNat _ (shiftRight_one_toNat _),
      (congrArg BitVec.toNat (s.setRegFlag_reg_vf x _ _)).trans (shiftedOutRight_toNat _),
      changesOnly_setRegFlag s x _ _⟩,
    ⟨_, exec_shl x y s, s.setRegFlag_result_toNat _ (shiftLeft_one_toNat _),
      (congrArg BitVec.toNat (s.setRegFlag_reg_vf x _ _)).trans (shiftedOutLeft_toNat _),
      changesOnly_setRegFlag s x _ _⟩⟩

/-- Settles O36: the write of V[X], and then the draw used up. -/
theorem randomWritesTheMaskedDraw : Obligations.RandomWritesTheMaskedDraw := fun x nn s =>
  ⟨_, exec_rnd x nn s, s.setReg_reg_same x _,
    ((changesOnly_setReg s x _).mono (by simp)).trans ((changesOnly_nextDraw _).mono (by simp))⟩

/-- Settles O37: the step runs RND with the input as its draw, and the draws are put back. -/
theorem stepInputIsTheDrawOfItsRandomInstruction : Obligations.StepInputIsTheDrawOfItsRandomInstruction :=
  fun s _ x nn r hrun hfetch hdec =>
  ⟨_, transact_step_rnd r hrun (fetchesWord_iff.1 hfetch) hdec, s.advance.setReg_reg_same x (r &&& nn), s.advance_pc,
    ((changesOnly_advance s).mono (by simp)).trans ((changesOnly_setReg _ x _).mono (by simp))⟩

end Sys2Proof.Machine
end

section
/-!
The index register and memory instructions (spec/42_index_memory.md).
-/

namespace Sys2Proof.Machine

/-! ### What each instruction answers -/

theorem exec_addI (x : Reg) (s : State) :
    exec (.addI x) s = .next (s.setIndex (s.index + zextByte (s.reg x))) := rfl

theorem exec_ldF (x : Reg) (s : State) : exec (.ldF x) s = .next (s.setIndex (glyphAddr (s.reg x))) := rfl

theorem exec_ldB_of_ok {s t : State} {x : Reg} (h : s.writeBytes (s.effAddr 0) (bcdDigits (s.reg x)) = .ok t) :
    exec (.ldB x) s = .next t := State.finish_next.2 (.inl h)

theorem exec_ldB_of_error {s : State} {x : Reg} {f : Fault}
    (h : s.writeBytes (s.effAddr 0) (bcdDigits (s.reg x)) = .error f) :
    exec (.ldB x) s = .next (s.raise (.ldB x) f) := State.finish_next.2 (.inr ⟨f, h, rfl⟩)

theorem exec_stRegs_iff {s t : State} {x : Reg} :
    exec (.stRegs x) s = .next t ↔ s.writeBytes (s.effAddr 0) (s.regsUpTo x) = .ok t ∨
      ∃ f, s.writeBytes (s.effAddr 0) (s.regsUpTo x) = .error f ∧ t = s.raise (.stRegs x) f := State.finish_next

theorem exec_ldRegs_of_ok {s : State} {x : Reg} {bs : List Byte}
    (h : s.readBytes (s.effAddr 0) (x.toNat + 1) = .ok bs) :
    exec (.ldRegs x) s = .next (s.setV (setRegsFrom s.v 0 bs)) := by
  simp only [exec, execLdRegs, h, State.finish]

theorem exec_ldRegs_of_error {s : State} {x : Reg} {f : Fault}
    (h : s.readBytes (s.effAddr 0) (x.toNat + 1) = .error f) :
    exec (.ldRegs x) s = .next (s.raise (.ldRegs x) f) := by
  simp only [exec, execLdRegs, h, State.finish]

theorem exec_drw_of_ok {s : State} {x y : Reg} {n : Nibble} {rows : List Byte}
    (h : s.readBytes (s.effAddr 0) n.toNat = .ok rows) : exec (.drw x y n) s = .next (s.draw x y rows) := by
  simp only [exec, execDrw, h, State.finish]

theorem exec_drw_of_error {s : State} {x y : Reg} {n : Nibble} {f : Fault}
    (h : s.readBytes (s.effAddr 0) n.toNat = .error f) :
    exec (.drw x y n) s = .next (s.raise (.drw x y n) f) := by
  simp only [exec, execDrw, h, State.finish]

/-! ### Results as numbers -/

/-- Sixteen glyphs of five bytes end below 2^16, so the glyph address never wraps (R162). -/
theorem glyphAddr_toNat (vx : Byte) : (glyphAddr vx).toNat = vx.toNat % 16 * 5 := by
  have hnibble : (vx &&& 0x0F).toNat = vx.toNat % 16 := by
    rw [BitVec.toNat_and]
    exact Nat.and_two_pow_sub_one_eq_mod vx.toNat 4
  rw [glyphAddr, BitVec.toNat_mul, zextByte_toNat, hnibble]
  exact Nat.mod_eq_of_lt (show vx.toNat % 16 * 5 < 2 ^ 16 by omega)

theorem byte_ofNat_toNat {n : Nat} (h : n < 256) : (BitVec.ofNat 8 n).toNat = n := by
  rw [BitVec.toNat_ofNat, Nat.mod_eq_of_lt h]

theorem State.regsUpTo_length (s : State) (x : Reg) : (s.regsUpTo x).length = x.toNat + 1 := by
  simp [State.regsUpTo]

theorem State.regsUpTo_get (s : State) {x r : Reg} (h : r.toNat ≤ x.toNat) :
    (s.regsUpTo x)[r.toNat]? = some (s.reg r) := by
  simp [State.regsUpTo, Nat.lt_succ_of_le h, State.regNo_toNat]

theorem State.setRegsFrom_reg (s : State) (bs : List Byte) (r : Reg) :
    (s.setV (setRegsFrom s.v 0 bs)).reg r = (bs[r.toNat]?).getD (s.reg r) :=
  (setRegsFrom_get bs s.v 0 r.toNat r.isLt).trans (if_pos (Nat.zero_le _))

/-! ### Block stores and block reads from I on -/

/-- A block store whose addresses I + k all go to places `a k` leaves byte `k` at `a k` and every other byte. -/
theorem State.writeBytes_at {s : State} {bs : List Byte} {a : Nat → Nat} (hl : bs.length ≤ 4096)
    (ha : ∀ k, k < bs.length → storeAddr s.cfg (s.index.toNat + k) = .ok (a k)) :
    ∃ t, s.writeBytes (s.effAddr 0) bs = .ok t ∧ (∀ k v, bs[k]? = some v → t.byteAt (a k) = v) ∧
      (∀ c, (∀ k, k < bs.length → c ≠ a k) → t.byteAt c = s.byteAt c) ∧ ChangesOnly [.mem] s t := by
  obtain ⟨t, ht⟩ := State.writeBytes_of_ok (s := s) (a := s.effAddr 0) fun k hk => ⟨a k, ha k hk⟩
  refine ⟨t, ht, fun k v hv => ?_, fun c hc => ?_, changesOnly_writeBytes ht⟩
  · exact State.writeBytes_byteAt ht hl hv (ha k (List.getElem?_eq_some_iff.1 hv).1)
  · obtain ⟨-, -, -, hother⟩ := State.writeBytes_ok ht
    refine hother c fun k hk hstore => hc k hk ?_
    cases (ha k hk).symm.trans hstore
    rfl

/-- A block read whose addresses I + k all go to places `a k` answers the bytes there. -/
theorem State.readBytes_at {s : State} {n : Nat} {a : Nat → Nat}
    (ha : ∀ k, k < n → memAddr s.cfg.oob (s.index.toNat + k) = .ok (a k)) :
    s.readBytes (s.effAddr 0) n = .ok ((List.range n).map fun k => s.byteAt (a k)) := by
  obtain ⟨bs, hbs⟩ := State.readBytes_of_ok (s := s) (a := s.effAddr 0) fun k hk => ⟨a k, ha k hk⟩
  obtain ⟨hlen, hbytes⟩ := State.readBytes_ok hbs
  rw [hbs]
  congr 1
  refine List.ext_getElem? fun k => ?_
  by_cases hk : k < n
  · obtain ⟨c, hc, hget⟩ := hbytes k hk
    cases (ha k hk).symm.trans hc
    simp [hget, hk]
  · simp [hlen, hk]

/-! ### The fault of a store -/

theorem storeAddr_outside {c : Config} {a : Nat} (ho : c.oob = .fault) (ha : 4096 ≤ a) :
    storeAddr c a = .error (.memoryBounds a) := by
  simp [storeAddr, memAddr, ho, Nat.not_lt.2 ha]

theorem storeAddr_font {c : Config} {a b : Nat} (hw : c.fontWrite = .fault) (hb : memAddr c.oob a = .ok b)
    (hlt : b < 80) : storeAddr c a = .error (.fontWrite b) := by
  simp [storeAddr, hb, hlt, hw]

/-- LD B, which stores 3 bytes, and LD [I], Vx, which stores X + 1, raise what the first failing address raises. -/
theorem exec_store_firstFault {i : Instr} {n : Nat}
    (hi : (∃ x, i = .ldB x ∧ n = 3) ∨ ∃ x, i = .stRegs x ∧ n = x.toNat + 1) {s : State} {k : Nat} {f : Fault}
    (hk : k < n) (hj : ∀ j, j < k → ∃ c, storeAddr s.cfg (s.index.toNat + j) = .ok c)
    (he : storeAddr s.cfg (s.index.toNat + k) = .error f) : exec i s = .next (s.raise i f) := by
  rcases hi with ⟨x, rfl, rfl⟩ | ⟨x, rfl, rfl⟩
  · exact exec_ldB_of_error (writeBytes_firstFault hk hj he)
  · exact exec_stRegs_iff.2 (.inr ⟨f, writeBytes_firstFault (by rw [State.regsUpTo_length]; exact hk) hj he, rfl⟩)

/-! ### The obligations -/

/-- Settles O39: each is one write of I, whose sum wraps and whose glyph address does not. -/
theorem indexArithmetic : Obligations.IndexArithmetic := fun x s =>
  ⟨⟨_, exec_addI x s, by rw [State.setIndex_index, BitVec.toNat_add, zextByte_toNat], changesOnly_setIndex s _⟩,
    ⟨_, exec_ldF x s, glyphAddr_toNat (s.reg x), changesOnly_setIndex s _⟩⟩

/-- Settles O40: the three digits of a byte are bytes. -/
theorem decimalStoreWritesThreeDigits : Obligations.DecimalStoreWritesThreeDigits := by
  intro x s a ha
  have hlt := (s.reg x).isLt
  obtain ⟨t, ht, hbyte, hother, hframe⟩ := State.writeBytes_at (bs := bcdDigits (s.reg x)) (by simp [bcdDigits]) ha
  refine ⟨t, exec_ldB_of_ok ht, ?_, ?_, ?_, hother, hframe⟩
  · rw [hbyte 0 _ rfl, byte_ofNat_toNat (by omega)]
  · rw [hbyte 1 _ rfl, byte_ofNat_toNat (by omega)]
  · rw [hbyte 2 _ rfl, byte_ofNat_toNat (by omega)]

/-- Settles O41: byte `k` of the block is V[k]. -/
theorem blockStoreWritesTheRegisters : Obligations.BlockStoreWritesTheRegisters := by
  intro x s a ha
  have hx := x.isLt
  have hstore : ∀ k, k < (s.regsUpTo x).length → storeAddr s.cfg (s.index.toNat + k) = .ok (a k) := fun k hk =>
    ha k (by rw [State.regsUpTo_length] at hk; omega)
  obtain ⟨t, ht, hbyte, hother, hframe⟩ := State.writeBytes_at (by rw [State.regsUpTo_length]; omega) hstore
  refine ⟨t, exec_stRegs_iff.2 (.inl ht), fun r hr => hbyte _ _ (s.regsUpTo_get hr), fun c hc => ?_, hframe⟩
  exact hother c fun k hk => hc k (by rw [State.regsUpTo_length] at hk; omega)

/-- Settles O42: the first failing address raises MemoryBounds or FontWrite, and the record names it. -/
theorem storesFaultAtTheirFirstFailingAddress : Obligations.StoresFaultAtTheirFirstFailingAddress := by
  intro i n hi s k hk hj
  refine ⟨fun ho hout => ?_, fun b hw hb hlt => ?_⟩
  · exact ⟨_, exec_store_firstFault hi hk hj (storeAddr_outside ho hout), faultTaken_raise s i _ rfl rfl⟩
  · exact ⟨_, exec_store_firstFault hi hk hj (storeAddr_font hw hb hlt), faultTaken_raise s i _ rfl rfl⟩

/-- Settles O43: the block has X + 1 bytes, so it reaches the registers up to V[X] and no other. -/
theorem blockLoadReadsTheRegisters : Obligations.BlockLoadReadsTheRegisters := by
  intro x s a ha
  have hread := State.readBytes_at (s := s) fun k (hk : k < x.toNat + 1) => ha k (by omega)
  refine ⟨_, exec_ldRegs_of_ok hread, fun r => ?_, changesOnly_setV s _⟩
  rw [State.setRegsFrom_reg]
  by_cases hr : r.toNat ≤ x.toNat
  · simp [hr, Nat.lt_succ_of_le hr]
  · simp [hr, show ¬ r.toNat < x.toNat + 1 by omega]

/-- Settles O44: both instructions read from I on, and the first read outside memory raises. -/
theorem readsFaultAtTheirFirstAddressOutsideMemory : Obligations.ReadsFaultAtTheirFirstAddressOutsideMemory := by
  intro i n hi s ho hn hout
  have hread := readBytes_firstFault ho hn hout
  refine ⟨s.raise i (.memoryBounds (max s.index.toNat 4096)), ?_, faultTaken_raise s i _ rfl rfl⟩
  rcases hi with ⟨x, rfl, rfl⟩ | ⟨x, y, m, rfl, rfl⟩
  · exact exec_ldRegs_of_error hread
  · exact exec_drw_of_error hread

/-- Settles O45: a store that does not fault has put V0 and V1 where the addresses I and I + 1 go, which is where a fetch
at I reads. -/
theorem storedCodeIsTheNextFetched : Obligations.StoredCodeIsTheNextFetched := by
  intro x s t _ h hrun hx
  rcases exec_stRegs_iff.1 h with hw | ⟨f, -, rfl⟩
  · obtain ⟨⟨m, rfl⟩, -, hstore, -⟩ := State.writeBytes_ok hw
    have hlen := s.regsUpTo_length x
    have hle : (s.regsUpTo x).length ≤ 4096 := by omega
    obtain ⟨a, ha⟩ := hstore 0 (by omega)
    obtain ⟨b, hb⟩ := hstore 1 (by omega)
    obtain ⟨hma, -⟩ := storeAddr_ok ha
    obtain ⟨hmb, -⟩ := storeAddr_ok hb
    have hv0 : (s.setMem m).byteAt a = s.reg 0 := State.writeBytes_byteAt hw hle (s.regsUpTo_get (Nat.zero_le _)) ha
    have hv1 : (s.setMem m).byteAt b = s.reg 1 := State.writeBytes_byteAt hw hle (s.regsUpTo_get hx) hb
    exact ⟨a, b, hma, hmb, congrArg₂ (· ++ ·) hv0.symm hv1.symm⟩
  · exact absurd hrun (takeFault_not_running s f _ _)

end Sys2Proof.Machine
end

section
/-!
Drawing a sprite (spec/43_display.md R181, R182).
-/

namespace Sys2Proof.Machine

/-! ### What a draw leaves -/

theorem State.draw_pixel {s : State} {x y : Reg} {rows : List Byte} (hr : rows.length ≤ 32) (p : Nat) :
    (UnderSprite (s.reg x).toNat (s.reg y).toNat rows p → pixel (s.draw x y rows).fb p = !pixel s.fb p) ∧
    (¬ UnderSprite (s.reg x).toNat (s.reg y).toNat rows p → pixel (s.draw x y rows).fb p = pixel s.fb p) := by
  obtain ⟨hpixel, -⟩ := drawRows_spec (s.reg x).toNat (s.reg y).toNat rows 0 (by omega) (s.fb, false)
  rw [← underRows_zero]
  exact hpixel p

theorem State.draw_vf (s : State) (x y : Reg) (rows : List Byte) :
    (s.draw x y rows).reg VF =
      flagByte (drawRows (s.reg x).toNat (s.reg y).toNat 0 rows (s.fb, false)).2 :=
  State.setReg_reg_same _ VF _

theorem draw_collision_iff {s : State} {x y : Reg} {rows : List Byte} (hr : rows.length ≤ 32) :
    (drawRows (s.reg x).toNat (s.reg y).toNat 0 rows (s.fb, false)).2 = true ↔
      ∃ p, UnderSprite (s.reg x).toNat (s.reg y).toNat rows p ∧ pixel s.fb p = true := by
  obtain ⟨-, hflag⟩ := drawRows_spec (s.reg x).toNat (s.reg y).toNat rows 0 (by omega) (s.fb, false)
  simp [hflag, underRows_zero]

theorem State.draw_vf_of_set {s : State} {x y : Reg} {rows : List Byte} (hr : rows.length ≤ 32)
    (h : ∃ p, UnderSprite (s.reg x).toNat (s.reg y).toNat rows p ∧ pixel s.fb p = true) :
    (s.draw x y rows).reg VF = 1 := by
  rw [State.draw_vf, (draw_collision_iff hr).2 h]
  rfl

theorem State.draw_vf_of_clear {s : State} {x y : Reg} {rows : List Byte} (hr : rows.length ≤ 32)
    (h : ∀ p, UnderSprite (s.reg x).toNat (s.reg y).toNat rows p → pixel s.fb p = false) :
    (s.draw x y rows).reg VF = 0 := by
  have hflag : (drawRows (s.reg x).toNat (s.reg y).toNat 0 rows (s.fb, false)).2 = false := by
    rw [Bool.eq_false_iff, ne_eq, draw_collision_iff hr]
    rintro ⟨p, hp, hset⟩
    exact absurd (h p hp) (by simp [hset])
  rw [State.draw_vf, hflag]
  rfl

theorem changesOnly_draw (s : State) (x y : Reg) (rows : List Byte) : ChangesOnly [.fb, .v VF] s (s.draw x y rows) :=
  ((changesOnly_setFb s _).mono (by simp)).trans ((changesOnly_setReg _ VF _).mono (by simp))

theorem exec_drw_at {s : State} {n : Nibble} {a : Nat → Nat} (x y : Reg)
    (ha : ∀ r, r < n.toNat → memAddr s.cfg.oob (s.index.toNat + r) = .ok (a r)) :
    exec (.drw x y n) s = .next (s.draw x y ((List.range n.toNat).map fun r => s.byteAt (a r))) :=
  exec_drw_of_ok (State.readBytes_at ha)

/-- A sprite has at most 15 rows, so it does not wrap around onto itself. -/
theorem spriteRows_length (n : Nibble) (f : Nat → Byte) : ((List.range n.toNat).map f).length ≤ 32 := by
  rw [List.length_map, List.length_range]
  omega

/-! ### Drawing again -/

section
variable {s u : State} {x y : Reg} {rows : List Byte}

/-- A second draw on the framebuffer of the first, at the same place, starts from the first draw's pixels. -/
theorem draw_again_fb (hr : rows.length ≤ 32) (hx : u.reg x = s.reg x) (hy : u.reg y = s.reg y)
    (hfb : u.fb = (s.draw x y rows).fb) : (u.draw x y rows).fb = s.fb := by
  refine fb_ext fun p _ => ?_
  obtain ⟨hin, hout⟩ := State.draw_pixel (s := s) (x := x) (y := y) hr p
  obtain ⟨hin', hout'⟩ := State.draw_pixel (s := u) (x := x) (y := y) hr p
  rw [hx, hy, hfb] at hin' hout'
  by_cases hp : UnderSprite (s.reg x).toNat (s.reg y).toNat rows p
  · rw [hin' hp, hin hp, Bool.not_not]
  · rw [hout' hp, hout hp]

/-- Under the sprite the first draw has inverted every pixel. -/
theorem draw_again_pixel (hr : rows.length ≤ 32) (hfb : u.fb = (s.draw x y rows).fb) {p : Nat}
    (hp : UnderSprite (s.reg x).toNat (s.reg y).toNat rows p) : pixel u.fb p = !pixel s.fb p := by
  rw [hfb]
  exact (State.draw_pixel hr p).1 hp

end

/-! ### The obligations -/

/-- Settles O47: the rows are the bytes at the addresses, and a sprite's rows and columns fall on distinct pixels. -/
theorem drawInvertsThePixelsUnderTheSprite : Obligations.DrawInvertsThePixelsUnderTheSprite := by
  intro x y n s a ha
  have hr := spriteRows_length n fun r => s.byteAt (a r)
  exact ⟨_, exec_drw_at x y ha, fun p _ => State.draw_pixel hr p, State.draw_vf_of_set hr, State.draw_vf_of_clear hr,
    changesOnly_draw s x y _⟩

/-- Settles O48: both draws read the same rows; the second inverts each pixel under the sprite back, and collides where
the first has set one. -/
theorem drawingTwiceRestoresTheFramebuffer : Obligations.DrawingTwiceRestoresTheFramebuffer := by
  intro x y n s t u a ha h hcfg hindex hbytes hx hy hfb
  have hr := spriteRows_length n fun r => s.byteAt (a r)
  cases (exec_drw_at x y ha).symm.trans h
  have hu := exec_drw_at (s := u) x y (a := a) (by rw [hcfg, hindex]; exact ha)
  simp only [hbytes] at hu
  refine ⟨_, hu, draw_again_fb hr hx hy hfb, ?_, fun hset => ?_⟩
  · rintro ⟨p, hp, hclear⟩
    refine State.draw_vf_of_set hr ⟨p, by rw [hx, hy]; exact hp, ?_⟩
    rw [draw_again_pixel hr hfb hp, hclear, Bool.not_false]
  · refine State.draw_vf_of_clear hr fun p hp => ?_
    rw [hx, hy] at hp
    rw [draw_again_pixel hr hfb hp, hset p hp, Bool.not_true]

end Sys2Proof.Machine
end

section
/-!
The key skips and the timer moves (spec/44_input_timers.md).
-/

namespace Sys2Proof.Machine

/-! ### What each instruction answers -/

theorem exec_ldVxDt (x : Reg) (s : State) : exec (.ldVxDt x) s = .next (s.setReg x s.dt) := rfl

theorem exec_ldDtVx (x : Reg) (s : State) : exec (.ldDtVx x) s = .next (s.setDt (s.reg x)) := rfl

theorem exec_ldStVx (x : Reg) (s : State) : exec (.ldStVx x) s = .next (s.setSt (s.reg x)) := rfl

section
variable {s : State} {x : Reg}

theorem exec_skp_of_ok {k : Nat} (h : keyIndex s.cfg.keyIndex (s.reg x) = .ok k) :
    exec (.skp x) s = .next (s.skipIf (s.keyAt k)) := by
  simp only [exec, execSkp, h, State.finish]

theorem exec_skp_of_error {f : Fault} (h : keyIndex s.cfg.keyIndex (s.reg x) = .error f) :
    exec (.skp x) s = .next (s.raise (.skp x) f) := by
  simp only [exec, execSkp, h, State.finish]

theorem exec_sknp_of_ok {k : Nat} (h : keyIndex s.cfg.keyIndex (s.reg x) = .ok k) :
    exec (.sknp x) s = .next (s.skipIf (!s.keyAt k)) := by
  simp only [exec, execSknp, h, State.finish]

theorem exec_sknp_of_error {f : Fault} (h : keyIndex s.cfg.keyIndex (s.reg x) = .error f) :
    exec (.sknp x) s = .next (s.raise (.sknp x) f) := by
  simp only [exec, execSknp, h, State.finish]

end

/-! ### The key index (R199) -/

theorem keyIndex_inside {p : KeyIndexPolicy} {vx : Byte} (h : vx.toNat < 16 ∨ p = .lowNibble) :
    keyIndex p vx = .ok (vx.toNat % 16) := by
  cases hk : keyIndex p vx with
  | ok k =>
    obtain ⟨-, rfl, -⟩ := keyIndex_ok hk
    rfl
  | error f =>
    obtain ⟨-, hge, hp⟩ := keyIndex_error hk
    rcases h with hlt | hp'
    · omega
    · cases hp.symm.trans hp'

theorem keyIndex_outside {p : KeyIndexPolicy} {vx : Byte} (hp : p = .fault) (h : 16 ≤ vx.toNat) :
    keyIndex p vx = .error (.keyIndex vx) := by
  subst hp
  exact if_neg (Nat.not_lt.2 h)

/-- FAULT_ADDR of a key fault is the register's value. -/
theorem Fault.keyIndex_info_eq (v : Byte) : (Fault.keyIndex v).info = BitVec.ofNat 17 v.toNat := by
  have hlt : v.toNat < 2 ^ 17 := by omega
  exact BitVec.eq_of_toNat_eq (by rw [Fault.keyIndex_info, BitVec.toNat_ofNat, Nat.mod_eq_of_lt hlt])

/-! ### The obligations -/

/-- Settles O49: the key index is V[X] modulo 16, and SKNP skips on the negated key. -/
theorem keySkipsTestTheKeyOfTheRegister : Obligations.KeySkipsTestTheKeyOfTheRegister := by
  intro x s h
  have hk := keyIndex_inside h
  refine ⟨⟨_, exec_skp_of_ok hk, s.skipIf_pc _, changesOnly_skipIf s _⟩,
    ⟨_, exec_sknp_of_ok hk, ?_, changesOnly_skipIf s _⟩⟩
  rw [State.skipIf_pc]
  cases s.keyAt ((s.reg x).toNat % 16) <;> rfl

/-- Settles O50: the key index raises with the register's value. -/
theorem keySkipsFaultOnNoKey : Obligations.KeySkipsFaultOnNoKey := by
  intro x s hv hp
  have hk := keyIndex_outside hp hv
  exact ⟨⟨_, exec_skp_of_error hk, faultTaken_raise s _ _ rfl (Fault.keyIndex_info_eq _)⟩,
    ⟨_, exec_sknp_of_error hk, faultTaken_raise s _ _ rfl (Fault.keyIndex_info_eq _)⟩⟩

/-- Settles O52: each is one write of its part alone. -/
theorem timerMoves : Obligations.TimerMoves := fun x s =>
  ⟨⟨_, exec_ldVxDt x s, s.setReg_reg_same x s.dt, changesOnly_setReg s x _⟩,
    ⟨_, exec_ldDtVx x s, s.setDt_dt _, changesOnly_setDt s _⟩,
    ⟨_, exec_ldStVx x s, s.setSt_st _, changesOnly_setSt s _⟩⟩

end Sys2Proof.Machine
end

section
/-!
The host's transactions other than STEP and RESET (spec/10_state.md R34, R36, R39, R43; spec/20_memory.md R70).
-/

namespace Sys2Proof.Machine

/-! ### TICK -/

theorem tickTimer_toNat (b : Byte) : (tickTimer b).toNat = b.toNat - 1 := by
  unfold tickTimer
  split_ifs with hb
  · rw [hb]
    rfl
  · have hpos : b ≠ 0 := hb
    bv_omega

theorem changesOnly_tick (s : State) : ChangesOnly [.dt, .st] s s.tick :=
  ((changesOnly_setDt s _).mono (by simp)).trans ((changesOnly_setSt _ _).mono (by simp))

/-! ### KEY -/

theorem State.setKey_of_lt {k : Nat} (hk : k < 16) (s : State) (pressed : Bool) :
    s.setKey k pressed = s.setKeys (s.keys.set k pressed) := dif_pos hk

theorem State.setKey_keyAt {k j : Nat} (hk : k < 16) (hj : j < 16) (s : State) (pressed : Bool) :
    (s.setKey k pressed).keyAt j = if j = k then pressed else s.keyAt j := by
  simp [State.setKey_of_lt hk, State.keyAt, hj, Vector.getElem_set, eq_comm]

theorem changesOnly_setKey {k : Nat} (hk : k < 16) (s : State) (pressed : Bool) :
    ChangesOnly [.keys] s (s.setKey k pressed) := by
  rw [State.setKey_of_lt hk]
  exact changesOnly_setKeys s _

/-! ### LOAD -/

theorem State.load_byteAt (s : State) (bytes : List Byte) (a : Nat) :
    (s.load bytes).byteAt a = if 0x200 ≤ a then (bytes[a - 0x200]?).getD (s.byteAt a) else s.byteAt a :=
  Memory.read_writeAll _ bytes s.mem 0x200 a

theorem State.load_byteAt_inside (s : State) {bytes : List Byte} {k : Nat} (hk : k < bytes.length) :
    (s.load bytes).byteAt (0x200 + k) = bytes[k] := by
  rw [State.load_byteAt, if_pos (Nat.le_add_right _ _), Nat.add_sub_cancel_left, List.getElem?_eq_getElem hk,
    Option.getD_some]

theorem State.load_byteAt_outside (s : State) {bytes : List Byte} {a : Nat}
    (ha : a < 0x200 ∨ 0x200 + bytes.length ≤ a) : (s.load bytes).byteAt a = s.byteAt a := by
  rw [State.load_byteAt]
  split_ifs with hge
  · rw [List.getElem?_eq_none (by omega), Option.getD_none]
  · rfl

/-! ### READ_DISPLAY -/

theorem State.displayBits_length (s : State) : s.displayBits.length = 2048 := by
  rw [State.displayBits, List.length_map, List.length_range]

theorem pixel_xy (f : Vector (BitVec 64) 32) {x y : Nat} (hx : x < 64) (hy : y < 32) :
    pixel f (x + 64 * y) = f[y].getLsbD x := by
  have hrow : (x + 64 * y) / 64 = y := by omega
  have hcol : (x + 64 * y) % 64 = x := by omega
  simp [pixel, hrow, hcol, hy]

theorem State.displayBits_get (s : State) {x y : Nat} (hx : x < 64) (hy : y < 32) :
    s.displayBits[x + 64 * y]? = some (s.fb[y].getLsbD x) := by
  rw [State.displayBits, List.getElem?_map, List.getElem?_range (by omega), Option.map_some, pixel_xy s.fb hx hy]

/-! ### The obligations -/

/-- Settles O53: each timer is written with its own decrement. -/
theorem tickDecrementsBothTimers : Obligations.TickDecrementsBothTimers := fun s =>
  ⟨s.tick, rfl, tickTimer_toNat s.dt, tickTimer_toNat s.st, changesOnly_tick s⟩

/-- Settles O54: below 16 it is one write of one key, else the transaction is rejected. -/
theorem keySetsOneKeyOrIsRejected : Obligations.KeySetsOneKeyOrIsRejected := fun _ pressed s =>
  ⟨fun hi => ⟨_, if_pos hi, fun _ hk => State.setKey_keyAt hi hk s pressed, changesOnly_setKey hi s pressed⟩,
    fun hi => if_neg (Nat.not_lt.2 hi)⟩

/-- Settles O55: at most 3584 bytes are one block write from 0x200 on, more are rejected. -/
theorem loadWritesItsBytesOrIsRejected : Obligations.LoadWritesItsBytesOrIsRejected := fun _ s =>
  ⟨fun hl => ⟨_, if_pos hl, fun _ hk => s.load_byteAt_inside hk, fun _ ha => s.load_byteAt_outside ha,
      changesOnly_setMem s _⟩,
    fun hl => if_neg (Nat.not_le.2 hl)⟩

/-- Settles O56: pixel x + 64 * y is bit x of row y. -/
theorem readsReturnTheDisplayAndTheStatus : Obligations.ReadsReturnTheDisplayAndTheStatus := fun s =>
  ⟨rfl, s.displayBits, rfl, s.displayBits_length, fun _ _ hx hy => s.displayBits_get hx hy⟩

end Sys2Proof.Machine
end

section
/-!
The end of a run: the jump to itself, and memory with nothing loaded (spec/70_reset_and_hazards.md R256, R262).
-/

namespace Sys2Proof.Machine

/-! ### The jump to itself -/

/-- A jump back to the address of the jump undoes the fetch advance. -/
theorem step_selfJump {s : State} {nnn : Imm12} (hrun : Running s) (hpc : zextAddr nnn = s.pc)
    (hfetch : s.fetch = .ok (encode (.jp nnn))) : step s = .next s := by
  rw [step_decoded hrun hfetch (decode_encode _), exec_jp, hpc]
  rfl

/-! ### Nothing loaded -/

theorem byteAt_reset_setPc (p : Word) {a : Nat} (ha : 80 ≤ a) : (State.reset.setPc p).byteAt a = 0 :=
  (byteAt_resetWith Config.default a).trans (dif_neg (Nat.not_lt.2 ha))

/-- Above the font nothing is loaded, so every fetch finds the word of NOP. -/
theorem fetch_reset_setPc {p : Word} (hlo : 80 ≤ p.toNat) (hhi : p.toNat < 4095) :
    (State.reset.setPc p).fetch = .ok 0x0000 := by
  have ha : memAddr (State.reset.setPc p).cfg.oob (State.reset.setPc p).pc.toNat = .ok p.toNat :=
    memAddr_below (by rw [State.setPc_pc]; omega)
  have hb : memAddr (State.reset.setPc p).cfg.oob ((State.reset.setPc p).pc.toNat + 1) = .ok (p.toNat + 1) :=
    memAddr_below (by rw [State.setPc_pc]; omega)
  rw [State.fetch_eq ha hb, byteAt_reset_setPc p hlo, byteAt_reset_setPc p (by omega)]
  rfl

theorem step_reset_setPc {p : Word} (hlo : 80 ≤ p.toNat) (hhi : p.toNat < 4095) :
    step (State.reset.setPc p) = .next (State.reset.setPc (p + 2)) :=
  step_decoded rfl (fetch_reset_setPc hlo hhi) (by decide : decode 0x0000 = some .nop)

theorem core_run_succ {s t : State} (k : Nat) (h : step s = .next t) : core.run (k + 1) s = core.run k t := by
  have hstep : core.step s = .next t := h
  simp only [Host.Core.run, hstep]

/-- By induction on the number of steps: each is a NOP, which leaves PC + 2. -/
theorem run_reset_setPc (k : Nat) (p : Word) (hlo : 80 ≤ p.toNat) (hhi : p.toNat + 2 * k ≤ 4096) :
    ∃ q : Word, core.run k (State.reset.setPc p) = .next (State.reset.setPc q) ∧ q.toNat = p.toNat + 2 * k := by
  induction k generalizing p with
  | zero => exact ⟨p, rfl, rfl⟩
  | succ k ih =>
    have hnext : (p + 2).toNat = p.toNat + 2 := BitVec.toNat_add_of_lt (y := 2) (by simp; omega)
    obtain ⟨q, hrun, hq⟩ := ih (p + 2) (by omega) (by omega)
    exact ⟨q, (core_run_succ k (step_reset_setPc hlo (by omega))).trans hrun, by omega⟩

theorem run_reset {k : Nat} (hk : k ≤ 1792) :
    ∃ q : Word, core.run k core.reset = .next (State.reset.setPc q) ∧ q.toNat = 0x200 + 2 * k :=
  run_reset_setPc k 0x200 (by decide) (show 0x200 + 2 * k ≤ 4096 by omega)

/-! ### The obligations -/

/-- Settles O57: the word is the encoding of JP to PC, and its jump undoes the fetch advance. -/
theorem selfJumpLeavesTheStateUnchanged : Obligations.SelfJumpLeavesTheStateUnchanged := by
  rintro s ⟨hrun, nnn, hpc, hfetch⟩
  exact step_selfJump hrun hpc (fetchesWord_iff.1 hfetch)

/-- Settles O58: 1792 steps of NOP lead from 0x200 to 0x1000, and a fetch there is outside memory. -/
theorem emptyMemoryRunsToItsEndAndFaults : Obligations.EmptyMemoryRunsToItsEndAndFaults := by
  refine ⟨fun k hk => ?_, ?_⟩
  · obtain ⟨q, hrun, hq⟩ := run_reset hk
    exact ⟨State.reset.setPc q, hrun, hq, changesOnly_setPc State.reset q⟩
  · obtain ⟨q, hrun, hq⟩ := run_reset (le_refl 1792)
    obtain rfl : q = 0x1000 := BitVec.eq_of_toNat_eq hq
    have hfetch : (State.reset.setPc 0x1000).fetch = .error (.memoryBounds 0x1000) :=
      State.fetch_outside rfl (by decide)
    exact ⟨_, _, hrun, step_fetchFault rfl hfetch, faultTaken_takeFault _ _ _ _ rfl rfl⟩

end Sys2Proof.Machine
end

section
/-!
Who writes what, over all instructions, steps and transactions (spec/10_state.md R22, R28, R30 to R37, R42;
spec/20_memory.md R61; spec/60_exceptions.md R221).
-/

namespace Sys2Proof.Machine

/-! ### Frames of instructions, steps and transactions -/

/-- Completed or faulted, an instruction changes no part but PC, the latch and those it writes when it completes. -/
theorem exec_frame {i : Instr} {s t : State} (h : exec i s = .next t) :
    ChangesOnly (.pc :: .latch :: partsWritten i) s t := by
  rcases exec_cases h with hframe | ⟨f, rfl, -⟩
  · exact hframe.mono fun p hp => List.mem_cons_of_mem _ (List.mem_cons_of_mem _ hp)
  · exact (changesOnly_takeFault s f _ _).mono (by simp)

theorem index_notMem_partsWritten {i : Instr} (hldI : ∀ nnn, i ≠ .ldI nnn) (haddI : ∀ x, i ≠ .addI x)
    (hldF : ∀ x, i ≠ .ldF x) : Part.index ∉ partsWritten i := by
  cases i <;> simp_all [partsWritten, allRegs]

theorem stack_notMem_partsWritten {i : Instr} (hcall : ∀ nnn, i ≠ .call nnn) (hret : i ≠ .ret) :
    Part.stack ∉ partsWritten i := by
  cases i <;> simp_all [partsWritten, allRegs]

theorem dt_notMem_partsWritten {i : Instr} (h : ∀ x, i ≠ .ldDtVx x) : Part.dt ∉ partsWritten i := by
  cases i <;> simp_all [partsWritten, allRegs]

theorem st_notMem_partsWritten {i : Instr} (h : ∀ x, i ≠ .ldStVx x) : Part.st ∉ partsWritten i := by
  cases i <;> simp_all [partsWritten, allRegs]

theorem keys_notMem_partsWritten (i : Instr) : Part.keys ∉ partsWritten i := by
  cases i <;> simp [partsWritten, allRegs]

theorem fb_notMem_partsWritten {i : Instr} (hcls : i ≠ .cls) (hdrw : ∀ x y n, i ≠ .drw x y n) :
    Part.fb ∉ partsWritten i := by
  cases i <;> simp_all [partsWritten, allRegs]

theorem mem_notMem_partsWritten {i : Instr} (hldB : ∀ x, i ≠ .ldB x) (hstRegs : ∀ x, i ≠ .stRegs x) :
    Part.mem ∉ partsWritten i := by
  cases i <;> simp_all [partsWritten, allRegs]

theorem step_keys {s t : State} (h : step s = .next t) : t.keys = s.keys := by
  rcases step_next h with ⟨-, rfl⟩ | ⟨-, f, w, -, rfl⟩ | ⟨i, hi⟩
  · rfl
  · rfl
  · exact hi.frame.keys (keys_notMem_partsWritten i)

/-- The parts a transaction of the host writes, for the transactions that are neither a STEP nor a RESET. -/
def hostParts : Transaction → List Part
  | .tick => [.dt, .st]
  | .key _ _ => [.keys]
  | .load _ => [.mem]
  | .step _ | .reset | .readDisplay | .readStatus => []

theorem transact_frame {tr : Transaction} {s t : State} {a : Answer} (h : transact tr s = .next (t, a))
    (hstep : ∀ r, tr ≠ .step r) (hreset : tr ≠ .reset) : ChangesOnly (hostParts tr) s t := by
  cases tr
  case step r => exact absurd rfl (hstep r)
  case reset => exact absurd rfl hreset
  case tick => cases h; exact changesOnly_tick s
  case key index pressed =>
    simp only [transact] at h
    split at h <;> cases h
    · exact changesOnly_setKey ‹_› s pressed
    · exact ChangesOnly.refl _ s
  case load bytes =>
    simp only [transact] at h
    split at h <;> cases h
    · exact changesOnly_setMem s _
    · exact ChangesOnly.refl _ s
  case readDisplay | readStatus => cases h; exact ChangesOnly.refl _ s

/-! ### General registers -/

/-- With no key pressed LD Vx, K writes no register, and with a key pressed V[X] alone. -/
theorem exec_ldVxK_reg {x r : Reg} {s t : State} (h : exec (.ldVxK x) s = .next t)
    (hr : ¬ (r = x ∧ ∃ k, k < 16 ∧ s.keyAt k = true)) : t.reg r = s.reg r := by
  cases hkey : s.lowestKey with
  | none =>
    cases (exec_ldVxK_of_none x hkey).symm.trans h
    rfl
  | some k =>
    obtain ⟨hk, hpressed, -⟩ := State.lowestKey_some hkey
    cases (exec_ldVxK_of_pressed x hkey).symm.trans h
    rw [State.setReg_reg, if_neg fun hrx => hr ⟨hrx, k, hk, hpressed⟩]

/-- LD Vx, [I] reads X + 1 bytes, which reach no register above V[X]. -/
theorem exec_ldRegs_reg {x r : Reg} {s t : State} (h : exec (.ldRegs x) s = .next t) (hr : x.toNat < r.toNat) :
    t.reg r = s.reg r := by
  cases hread : s.readBytes (s.effAddr 0) (x.toNat + 1) with
  | ok bs =>
    obtain ⟨hlen, -⟩ := State.readBytes_ok hread
    cases (exec_ldRegs_of_ok hread).symm.trans h
    rw [State.setRegsFrom_reg, List.getElem?_eq_none (by omega), Option.getD_none]
  | error f =>
    cases (exec_ldRegs_of_error hread).symm.trans h
    rfl

/-! ### PC -/

theorem State.skipIf_pc_or (s : State) (c : Bool) : (s.skipIf c).pc = s.pc ∨ (s.skipIf c).pc = s.pc + 2 := by
  cases c
  · exact .inl rfl
  · exact .inr rfl

theorem raise_not_running (s : State) (i : Instr) (f : Fault) : ¬ Running (s.raise i f) :=
  takeFault_not_running s f _ _

/-- An instruction that does not write PC leaves it when it does not fault. -/
theorem exec_pc_of_notMem {i : Instr} {s t : State} (hi : Part.pc ∉ partsWritten i) (h : exec i s = .next t)
    (hrun : Running t) : t.pc = s.pc := by
  rcases exec_cases h with hframe | ⟨f, rfl, -⟩
  · exact hframe.pc hi
  · exact absurd hrun (raise_not_running s i f)

/-- An instruction that ends in a running state has completed. -/
theorem finish_running {s t : State} {i : Instr} {res : Except Fault State} (h : s.finish i res = .next t)
    (hrun : Running t) : res = .ok t := by
  rcases State.finish_next.1 h with hok | ⟨f, -, rfl⟩
  · exact hok
  · exact absurd hrun (raise_not_running s i f)

theorem exec_ret_pcAfter {s t : State} (h : exec .ret s = .next t) (hrun : Running t) : PcAfter .ret s t.pc := by
  have hok := finish_running h hrun
  split at hok <;> cases hok
  rename_i hpop
  obtain ⟨hpos, rfl, rfl⟩ := State.pop_ok hpop
  exact ⟨s.sp.val - 1, by omega, by omega, rfl⟩

theorem exec_ldVxK_pcAfter {x : Reg} {s t : State} (h : exec (.ldVxK x) s = .next t) : PcAfter (.ldVxK x) s t.pc := by
  cases hkey : s.lowestKey with
  | none =>
    cases (exec_ldVxK_of_none x hkey).symm.trans h
    exact .inr ⟨rfl, State.lowestKey_none hkey⟩
  | some k =>
    obtain ⟨hk, hpressed, -⟩ := State.lowestKey_some hkey
    cases (exec_ldVxK_of_pressed x hkey).symm.trans h
    exact .inl ⟨rfl, k, hk, hpressed⟩

/-- An instruction that does not fault leaves PC as R28 lists for it. -/
theorem exec_pcAfter {i : Instr} {s t : State} (h : exec i s = .next t) (hrun : Running t) : PcAfter i s t.pc := by
  cases i
  case ret => exact exec_ret_pcAfter h hrun
  case call nnn =>
    have hok := finish_running h hrun
    split at hok <;> cases hok
    exact zextAddr_toNat nnn
  case skp | sknp =>
    have hok := finish_running h hrun
    split at hok <;> cases hok
    exact s.skipIf_pc_or _
  case ldVxK x => exact exec_ldVxK_pcAfter h
  case jp nnn => cases h; exact zextAddr_toNat nnn
  case jpV0 nnn => cases h; exact zextAddr_add_zextByte_toNat nnn (s.reg 0)
  case seByte | sneByte | seReg | sneReg => cases h; exact s.skipIf_pc_or _
  all_goals exact exec_pc_of_notMem (by simp [partsWritten, allRegs]) h hrun

/-! ### The random draws -/

section
variable (s : State) (r : Byte) (d : Nat)

theorem pop_setRnd : (s.setRnd r d).pop = s.pop.map fun p => (p.1, p.2.setRnd r d) := by
  unfold State.pop
  by_cases h : 0 < s.sp.val
  · rw [dif_pos h, dif_pos (show 0 < (s.setRnd r d).sp.val from h)]
    rfl
  · rw [dif_neg h, dif_neg (show ¬ 0 < (s.setRnd r d).sp.val from h)]
    rfl

theorem push_setRnd (w : Word) : (s.setRnd r d).push w = (s.push w).map (·.setRnd r d) := by
  unfold State.push
  by_cases h : s.sp.val < 16
  · rw [dif_pos h, dif_pos (show (s.setRnd r d).sp.val < 16 from h)]
    rfl
  · rw [dif_neg h, dif_neg (show ¬ (s.setRnd r d).sp.val < 16 from h)]
    rfl

theorem writeBytes_setRnd_map (a : Nat) (bs : List Byte) :
    (s.setRnd r d).writeBytes a bs = (s.writeBytes a bs).map (·.setRnd r d) := by
  rw [writeBytes_setRnd]
  cases s.writeBytes a bs <;> rfl

theorem effAddr_setRnd (k : Nat) : (s.setRnd r d).effAddr k = s.effAddr k := rfl

theorem skipIf_setRnd (c : Bool) : (s.setRnd r d).skipIf c = (s.skipIf c).setRnd r d := by
  cases c <;> rfl

variable {s}

/-- An instruction whose result takes the draws along ends with them. -/
theorem finish_setRnd {t : State} {i : Instr} {res res' : Except Fault State}
    (hres : res' = res.map (·.setRnd r d)) (h : s.finish i res = .next t) :
    (s.setRnd r d).finish i res' = .next (t.setRnd r d) := by
  subst hres
  cases res <;> cases h <;> rfl

/-- Every instruction but RND takes the draws along and does not look at them (R42). -/
theorem exec_setRnd {i : Instr} {t : State} (hi : ∀ x nn, i ≠ .rnd x nn) (h : exec i s = .next t) :
    exec i (s.setRnd r d) = .next (t.setRnd r d) := by
  cases i
  case rnd x nn => exact absurd rfl (hi x nn)
  case ret =>
    refine finish_setRnd r d ?_ h
    rw [pop_setRnd]
    cases s.pop <;> rfl
  case call nnn =>
    refine finish_setRnd r d ?_ h
    rw [push_setRnd, State.setRnd_pc]
    cases s.push s.pc <;> rfl
  case drw x y n =>
    refine finish_setRnd r d ?_ h
    cases hread : s.readBytes (s.effAddr 0) n.toNat <;> simp only [effAddr_setRnd, readBytes_setRnd, hread] <;> rfl
  case ldRegs x =>
    refine finish_setRnd r d ?_ h
    cases hread : s.readBytes (s.effAddr 0) (x.toNat + 1) <;>
      simp only [effAddr_setRnd, readBytes_setRnd, hread] <;> rfl
  case skp x | sknp x =>
    refine finish_setRnd r d ?_ h
    cases hk : keyIndex s.cfg.keyIndex (s.reg x) <;>
      simp only [State.setRnd_cfg, State.reg_setRnd, hk, skipIf_setRnd] <;> rfl
  case seByte | sneByte | seReg | sneReg => cases h; exact congrArg Host.Outcome.next (skipIf_setRnd s r d _)
  case ldB x => exact finish_setRnd r d (writeBytes_setRnd_map s r d _ _) h
  case stRegs x => exact finish_setRnd r d (writeBytes_setRnd_map s r d _ _) h
  case ldVxK x =>
    cases hkey : s.lowestKey with
    | none =>
      cases (exec_ldVxK_of_none x hkey).symm.trans h
      exact exec_ldVxK_of_none (s := s.setRnd r d) x hkey
    | some k =>
      cases (exec_ldVxK_of_pressed x hkey).symm.trans h
      exact exec_ldVxK_of_pressed (s := s.setRnd r d) x hkey
  all_goals cases h; rfl

end

/-- A step whose instruction is not RND takes the draws along. -/
theorem step_setRnd {s t : State} (hs : ∀ w x nn, s.fetch = .ok w → decode w ≠ some (.rnd x nn))
    (h : step s = .next t) (r : Byte) (d : Nat) : step (s.setRnd r d) = .next (t.setRnd r d) := by
  rcases step_cases s with ⟨hh, hst⟩ | ⟨hh, f, hf, hst⟩ | ⟨hh, w, hf, hd, hst⟩ | ⟨hh, w, i, hf, hd, hst⟩ <;>
    rw [hst] at h
  · cases h
    exact step_halted hh
  · cases h
    exact step_fetchFault (s := s.setRnd r d) hh hf
  · cases h
    exact step_undecoded (s := s.setRnd r d) hh hf hd
  · have hi : ∀ x nn, i ≠ .rnd x nn := fun x nn hrnd => hs w x nn hf (hrnd ▸ hd)
    exact (step_decoded (s := s.setRnd r d) hh hf hd).trans (exec_setRnd r d hi h)

/-! ### The obligations -/

/-- Settles O17: the parts an instruction writes name no other register than R22, but for LD Vx, K without a pressed key
and LD Vx, [I] with X below 15. -/
theorem onlyTheListedRegistersAreWritten : Obligations.OnlyTheListedRegistersAreWritten := by
  intro i s t r h hr
  by_cases hmem : Part.v r ∈ partsWritten i
  · cases i
    case ldVxK x => exact exec_ldVxK_reg h hr
    case ldRegs x => exact exec_ldRegs_reg h (Nat.lt_of_not_le hr)
    all_goals simp_all [partsWritten, MayWriteReg]
  · exact (exec_frame h).regs r (by simpa using hmem)

/-- Settles O18: the frame of an instruction names neither I nor the stack but for the listed ones. -/
theorem indexAndStackHaveTheirOwnWriters : Obligations.IndexAndStackHaveTheirOwnWriters := by
  intro i s t h
  refine ⟨fun ⟨hldI, haddI, hldF⟩ => (exec_frame h).index ?_, fun ⟨hcall, hret⟩ => (exec_frame h).stack ?_⟩
  · simpa using index_notMem_partsWritten hldI haddI hldF
  · simpa using stack_notMem_partsWritten hcall hret

/-- Settles O19, by the frames of the instructions and of the transactions; a step has no instruction that writes a key. -/
theorem timersAndKeysHaveTheirOwnWriters : Obligations.TimersAndKeysHaveTheirOwnWriters := by
  refine ⟨fun i s t h => ⟨fun hi => (exec_frame h).dt ?_, fun hi => (exec_frame h).st ?_⟩, fun tr s t a h => ⟨?_, ?_⟩⟩
  · simpa using dt_notMem_partsWritten hi
  · simpa using st_notMem_partsWritten hi
  · rintro ⟨hkey, hreset⟩
    cases tr
    case step r =>
      obtain ⟨u, hu⟩ := step_isNext (s.setRnd r s.draws)
      cases (transact_step hu).symm.trans h
      exact (step_keys hu : u.keys = (s.setRnd r s.draws).keys)
    case key k b => exact absurd rfl (hkey k b)
    all_goals exact (transact_frame h (by simp) hreset).keys (by simp [hostParts])
  · rintro ⟨hstep, htick, hreset⟩
    have hframe := transact_frame h hstep hreset
    cases tr
    case tick => exact absurd rfl htick
    all_goals exact ⟨hframe.dt (by simp [hostParts]), hframe.st (by simp [hostParts])⟩

/-- Settles O20: the frame of an instruction names neither the framebuffer nor memory but for the listed ones. -/
theorem framebufferAndMemoryHaveTheirOwnWriters : Obligations.FramebufferAndMemoryHaveTheirOwnWriters := by
  intro i s t h
  refine ⟨fun ⟨hcls, hdrw⟩ => (exec_frame h).fb ?_, fun ⟨hldB, hstRegs⟩ => (exec_frame h).mem ?_⟩
  · simpa using fb_notMem_partsWritten hcls hdrw
  · simpa using mem_notMem_partsWritten hldB hstRegs

/-- Settles O21, by the three ways a step goes, and by the frames of the other transactions. -/
theorem programCounterChangesOnlyAsListed : Obligations.ProgramCounterChangesOnlyAsListed := by
  refine ⟨fun s t hrun h ht => ?_, fun s t h ht => ?_, fun tr s t a h => ⟨?_, fun ⟨hstep, hreset⟩ => ?_⟩⟩
  · rcases step_next h with ⟨hh, -⟩ | ⟨-, f, w, -, rfl⟩ | ⟨i, hi⟩
    · cases hrun.symm.trans hh
    · exact absurd ht (takeFault_not_running s f s.pc w)
    · obtain ⟨w, hf, hd⟩ := hi.fetched
      exact ⟨w, i, fetchesWord_iff.2 hf, hd, exec_pcAfter hi.answered ht⟩
  · rcases step_next h with ⟨-, rfl⟩ | ⟨-, f, w, -, rfl⟩ | ⟨i, hi⟩
    · rfl
    · rfl
    · exact absurd (hi.latch ▸ hi.running : t.latch.halted = false) ht
  · rintro rfl
    cases h
    rfl
  · refine (transact_frame h hstep hreset).pc ?_
    cases tr <;> simp [hostParts]

/-- Settles O22: every instruction answers a state; one that completes leaves the latch, and only those of R220 do not. -/
theorem otherInstructionsNeverFault : Obligations.OtherInstructionsNeverFault := by
  intro i s hi
  obtain ⟨t, h⟩ := exec_isNext i s
  rcases exec_cases h with hframe | ⟨f, -, hcan, -⟩
  · exact ⟨t, h, hframe.latch (latch_notMem_partsWritten i)⟩
  · exact absurd hcan hi

/-- Settles O38: the input of the STEP stands in the draws, which the step takes along and the transaction puts back. -/
theorem onlyRandomReadsTheStepInput : Obligations.OnlyRandomReadsTheStepInput := by
  intro s r r' hs
  obtain ⟨t, ht⟩ := step_isNext s
  have hnotRnd : ∀ w x nn, s.fetch = .ok w → decode w ≠ some (.rnd x nn) := fun w x nn hf =>
    hs w x nn (fetchesWord_iff.2 hf)
  rw [transact_step (step_setRnd hnotRnd ht r s.draws), transact_step (step_setRnd hnotRnd ht r' s.draws)]
  rfl

end Sys2Proof.Machine
end
